-- ==== Sys2Proof/Word.lean ====
section
/-! DEFINITION. Word.lean: the machine's word, its register index and its text, with the conversions of
spec/00_scope.md R8 and R9. -/

namespace Sys2Proof

/-- An XLEN-bit value, XLEN = 32 (00_scope.md R7, R8): what a register and a data-memory word hold. -/
abbrev Word := BitVec 32

/-- The index of a general register, 0 to 31 (10_state.md R20). -/
abbrev Reg := Fin 32

/-- Program text: a string as the list of its characters (00_scope.md R11). -/
abbrev Text := List Char

/-- `sint(v)` of 00_scope.md R9: the two's-complement reading. -/
abbrev sint (v : Word) : Int := v.toInt

/-- `bv_XLEN(i)` of 00_scope.md R9: the word whose unsigned reading is `i mod 2^XLEN`. -/
abbrev bvXlen (i : Int) : Word := BitVec.ofInt 32 i

end Sys2Proof
end

