-- ==== Sys2Proof/Machine/Fatal.lean ====
section
/-! DEFINITION. Machine/Fatal.lean: the fatal conditions of spec/60_exceptions.md R180, with the codes, sub-codes and recorded
information of its table. -/

namespace Sys2Proof

/-- What a fault records beside its codes (10_state.md R27). -/
inductive FaultInfo where
  /-- nothing recorded: the latch after reset -/
  | empty
  /-- the offending token, or the unresolved label -/
  | token (t : Text)
  /-- the effective address, an exact integer -/
  | address (ea : Int)
  deriving DecidableEq, Repr

/-- The causes of 60_exceptions.md R180, one constructor per row of its table that can be raised. -/
inductive FatalCause where
  /-- wrong number of tokens for the opcode; raised by decode (30_encoding.md R86) -/
  | operandCount (opcode : Text)
  /-- register token not `[0-9]+`; raised by parseReg (R81) -/
  | regSyntax (tok : Text)
  /-- register index above 31; raised by parseReg (R81) -/
  | regRange (tok : Text)
  /-- integer token not `[+-]?[0-9]+`; raised by parseInt (R82) -/
  | intSyntax (tok : Text)
  /-- integer outside the signed XLEN range; raised by parseInt (R82) -/
  | intRange (tok : Text)
  /-- memory operand not `P(Q)`; raised by parseMem (R84) -/
  | memSyntax (tok : Text)
  /-- label in neither table; raised by resolve (40_step_cycle.md R119) -/
  | labelNotFound (lab : Text)
  /-- effective address below 0; raised by LW and SW (20_memory.md R57) -/
  | negativeAddress (ea : Int)
  /-- effective address at or above MEM_ADDR_BOUND; raised by LW and SW (20_memory.md R57) -/
  | addressAboveBound (ea : Int)
  deriving DecidableEq, Repr

/-- The `code` column of R180: MALFORMED_OPERAND 1, LABEL_NOT_FOUND 2, ADDRESS_FAULT 3. -/
def FatalCause.code : FatalCause → Nat
  | .operandCount _ => 1
  | .regSyntax _ => 1
  | .regRange _ => 1
  | .intSyntax _ => 1
  | .intRange _ => 1
  | .memSyntax _ => 1
  | .labelNotFound _ => 2
  | .negativeAddress _ => 3
  | .addressAboveBound _ => 3

/-- The `sub` column of R180. -/
def FatalCause.sub : FatalCause → Nat
  | .operandCount _ => 1
  | .regSyntax _ => 2
  | .regRange _ => 3
  | .intSyntax _ => 4
  | .intRange _ => 5
  | .memSyntax _ => 6
  | .labelNotFound _ => 0
  | .negativeAddress _ => 1
  | .addressAboveBound _ => 2

/-- The `info recorded` column of R180. -/
def FatalCause.info : FatalCause → FaultInfo
  | .operandCount t => .token t
  | .regSyntax t => .token t
  | .regRange t => .token t
  | .intSyntax t => .token t
  | .intRange t => .token t
  | .memSyntax t => .token t
  | .labelNotFound t => .token t
  | .negativeAddress ea => .address ea
  | .addressAboveBound ea => .address ea

end Sys2Proof
end

