-- ==== Sys2Proof/Config.lean ====
section
/-! DEFINITION. Config.lean: the parameters of spec/00_scope.md R7. Those the rule calls "a model argument" are the fields of
Config, which the state carries unchanged; the others are fixed constants. -/

namespace Sys2Proof

/-- The parameters a hardware instance may set (00_scope.md R7, "a model argument"). -/
structure Config where
  /-- `MEM_ADDR_BOUND`: the exclusive upper bound on data addresses, or none (20_memory.md R51). -/
  memAddrBound  : Option Nat
  /-- `COMMENT_MARKER`: the character that starts a comment in a raw program line (30_encoding.md R71). -/
  commentMarker : Char
  deriving DecidableEq, Repr

/-- `XLEN`: the width of every register and data-memory word. -/
def xlen : Nat := 32

/-- The signed XLEN range of 30_encoding.md R82 and R85. -/
abbrev inSignedRange (v : Int) : Prop := -(2 : Int) ^ (xlen - 1) ≤ v ∧ v ≤ (2 : Int) ^ (xlen - 1) - 1

/-- The exclusive bound on `LEN` (30_encoding.md R77). -/
def lenBound : Nat := 2 ^ (xlen - 1)

end Sys2Proof
end

