-- ==== Sys2Proof/Machine/Params.lean ====
section
/-! DEFINITION. Machine/Params.lean: the values spec/00_scope.md R7 gives the block's parameters. -/

namespace Sys2Proof

/-- R7's default values: no upper bound on data addresses, and `#` as the comment marker. -/
def Config.standard : Config := { memAddrBound := none, commentMarker := '#' }

/-- `LINK_REG`: the register JAL writes when rd is omitted. -/
def linkReg : Reg := 1

/-- `LABEL_DELIM`: the label delimiter. -/
def labelDelim : Char := ':'

/-- `QUOTE_CHARS`: the quote characters stripped around an instruction (30_encoding.md R74). -/
def isQuote (c : Char) : Bool := c == '"' || c == '\''

end Sys2Proof
end

