-- ==== Sys2Proof/Machine/Text.lean ====
section
/-! DEFINITION. Machine/Text.lean: the text primitives of spec/00_scope.md R11 and the decimal reading of a digit string. -/

namespace Sys2Proof

/-- An ASCII character (30_encoding.md R70). -/
def isAscii (c : Char) : Bool := c.toNat < 128

/-- `upper` of one character: `a`..`z` to `A`..`Z`, every other character unchanged. -/
def upperChar (c : Char) : Char :=
  if 97 ≤ c.toNat ∧ c.toNat ≤ 122 then Char.ofNat (c.toNat - 32) else c

/-- `upper(s)`. -/
def upper (s : Text) : Text := s.map upperChar

/-- A whitespace character: SP, HT, LF, VT, FF or CR. -/
def isWhitespace (c : Char) : Bool :=
  c == ' ' || c == '\t' || c == '\n' || c == '\x0b' || c == '\x0c' || c == '\r'

/-- A separator: whitespace or a comma. -/
def isSeparator (c : Char) : Bool := isWhitespace c || c == ','

/-- `s` without its leading and trailing characters that satisfy `p`. -/
def stripBoth (p : Char → Bool) (s : Text) : Text :=
  ((s.dropWhile p).reverse.dropWhile p).reverse

/-- `trim(s)`. -/
def trim (s : Text) : Text := stripBoth isWhitespace s

/-- `unquote(s)` of 30_encoding.md R74: every leading and then every trailing quote character removed. -/
def unquote (s : Text) : Text := stripBoth isQuote s

/-- `find(s, c)` together with the two pieces its callers take: with `j = find(s, c)`, the pair `(s[0:j], s[j+1:])`, or none. -/
def splitFirst (c : Char) : Text → Option (Text × Text)
  | [] => none
  | d :: s => if d = c then some ([], s) else (splitFirst c s).map fun pr => (d :: pr.1, pr.2)

/-- An ASCII decimal digit. -/
def isDigit (c : Char) : Bool := 48 ≤ c.toNat && c.toNat ≤ 57

/-- `isNat(t)` of 30_encoding.md R83: `t` matches `[0-9]+`. -/
def isNat (t : Text) : Bool := !t.isEmpty && t.all isDigit

/-- The decimal value of a string of digits. -/
def decimalValue (t : Text) : Nat := t.foldl (fun acc c => acc * 10 + (c.toNat - 48)) 0

/-- The decimal digit of `d`, 0 to 9. -/
def digitChar (d : Nat) : Char := Char.ofNat (48 + d)

/-- The decimal digits of `n`, at most `fuel + 1` of them, in front of `acc`. -/
def natTextAux : Nat → Nat → Text → Text
  | 0, n, acc => digitChar (n % 10) :: acc
  | fuel + 1, n, acc =>
    if n < 10 then digitChar n :: acc else natTextAux fuel (n / 10) (digitChar (n % 10) :: acc)

/-- The decimal spelling of a natural number, without leading zeros. -/
def natText (n : Nat) : Text := natTextAux n n []

/-- The decimal spelling of an integer, with `-` before a negative one. -/
def intText : Int → Text
  | .ofNat n => natText n
  | .negSucc n => '-' :: natText (n + 1)

/-- A token of 30_encoding.md R80 as the decoder sees it: not empty, ASCII, uppercase, and without a separator. -/
def isUpperToken (t : Text) : Bool :=
  !t.isEmpty && t.all fun c => isAscii c && !isSeparator c && upperChar c == c

end Sys2Proof
end

