-- ==== Sys2Proof/Machine/Opcodes.lean ====
section
/-! DEFINITION. Machine/Opcodes.lean: the opcode map of spec/30_encoding.md R91. -/

namespace Sys2Proof

/-- The eight recognised opcodes (00_scope.md R2). -/
inductive Opcode where
  | add | sub | li | lw | sw | beq | jal | j
  deriving DecidableEq, Repr

/-- How each opcode is spelled in an uppercased instruction (30_encoding.md R91). -/
def Opcode.spelling : Opcode → Text
  | .add => "ADD".toList
  | .sub => "SUB".toList
  | .li => "LI".toList
  | .lw => "LW".toList
  | .sw => "SW".toList
  | .beq => "BEQ".toList
  | .jal => "JAL".toList
  | .j => "J".toList

/-- The rows of R91, in its order. -/
def opcodeMap : List Opcode := [.add, .sub, .li, .lw, .sw, .beq, .jal, .j]

/-- The opcode that a first token names, or none for an unknown opcode; "the match is on the whole token". -/
def recognise (t : Text) : Option Opcode := opcodeMap.find? fun o => decide (o.spelling = t)

end Sys2Proof
end

