-- ==== Sys2Proof/Syntax.lean ====
section
/-! DEFINITION. Syntax.lean: the decoded instruction, spec/30_encoding.md R85, one constructor per row of
spec/opcode_table.json. -/

namespace Sys2Proof

/-- The decoder's output (30_encoding.md R85). Register fields are indices 0 to 31; `imm` and `off` are integers that
WellFormed keeps in the signed XLEN range; `lab` and `op` are uppercase tokens. R85's one `Jal` is two constructors here, one
per row of the opcode table (log entry 6). -/
inductive Instr where
  /-- `ADD rd rs1 rs2`, 41_arithmetic.md R130 -/
  | add (rd rs1 rs2 : Reg)
  /-- `SUB rd rs1 rs2`, 41_arithmetic.md R131 -/
  | sub (rd rs1 rs2 : Reg)
  /-- `LI rd imm`, 41_arithmetic.md R132 -/
  | li (rd : Reg) (imm : Int)
  /-- `LW rd offset(base)`, 42_load_store.md R140 -/
  | lw (rd : Reg) (off : Int) (base : Reg)
  /-- `SW rs2 offset(base)`, 42_load_store.md R142 -/
  | sw (rs2 : Reg) (off : Int) (base : Reg)
  /-- `BEQ rs1 rs2 label`, 43_control_transfer.md R150 -/
  | beq (rs1 rs2 : Reg) (lab : Text)
  /-- `JAL label` (rd omitted), 43_control_transfer.md R152 -/
  | jal (lab : Text)
  /-- `JAL rd label`, 43_control_transfer.md R154 -/
  | jalRd (rd : Reg) (lab : Text)
  /-- `J n`, 43_control_transfer.md R158 -/
  | jRel (n : Nat)
  /-- `J label`, 43_control_transfer.md R160 -/
  | jLab (lab : Text)
  /-- any other opcode, 44_noop.md R170 -/
  | unknown (op : Text)
  /-- the empty instruction, 44_noop.md R172 -/
  | empty
  deriving DecidableEq, Repr

end Sys2Proof
end

