-- ==== Sys2Proof/WellFormed.lean ====
section
/-! DEFINITION. WellFormed.lean: which decoded instructions spec/30_encoding.md R85 admits. -/

namespace Sys2Proof

/-- R85: "`imm` and `off` are integers in the signed XLEN range", "`lab` is an uppercase token", "`op` is the opcode token".
A `JLab` holds a token that is not a non-negative literal (R83) and an `Unknown` an opcode that is none of the eight (R91). -/
def Instr.wellFormed : Instr → Bool
  | .add _ _ _ => true
  | .sub _ _ _ => true
  | .li _ imm => decide (inSignedRange imm)
  | .lw _ off _ => decide (inSignedRange off)
  | .sw _ off _ => decide (inSignedRange off)
  | .beq _ _ lab => isUpperToken lab
  | .jal lab => isUpperToken lab
  | .jalRd _ lab => isUpperToken lab
  | .jRel _ => true
  | .jLab lab => isUpperToken lab && !isNat lab
  | .unknown op => isUpperToken op && (recognise op).isNone
  | .empty => true

end Sys2Proof
end

