-- ==== Sys2Proof/Decode.lean ====
section
/-! DEFINITION. Decode.lean: the tokenizer, the operand parsers and the decoder of spec/30_encoding.md R80 to R91, and after
them the encoder, which spells a decoded instruction by the textual formats of R89. -/

namespace Sys2Proof

/-- A parse either gives a value or raises a fatal condition. -/
abbrev Parse (α : Type) := Except FatalCause α

/-- The token in progress `cur`, as a list of tokens: none if it is empty. -/
def flushToken (cur : Text) : List Text := if cur = [] then [] else [cur]

/-- The tokens of `cur` followed by the text: maximal runs of non-separator characters, where `cur` is the run in progress. -/
def tokensFrom : Text → Text → List Text
  | cur, [] => flushToken cur
  | cur, c :: s => if isSeparator c then flushToken cur ++ tokensFrom [] s else tokensFrom (cur ++ [c]) s

/-- `tok[0..ntok-1]` of R80, of a text already uppercased. -/
def tokenize (u : Text) : List Text := tokensFrom [] u

/-- The tokens of an instruction string, all uppercase (R80). -/
def tokensOf (s : Text) : List Text := tokenize (upper s)

/-- `parseReg(t)`, R81. -/
def parseReg (t : Text) : Parse Reg :=
  if isNat t then
    if h : decimalValue t < 32 then .ok ⟨decimalValue t, h⟩ else .error (.regRange t)
  else .error (.regSyntax t)

/-- The value of a text that matches `[+-]?[0-9]+`, or none (R82). -/
def signedValue : Text → Option Int
  | '+' :: ds => if isNat ds then some (decimalValue ds) else none
  | '-' :: ds => if isNat ds then some (-(decimalValue ds : Int)) else none
  | ds => if isNat ds then some (decimalValue ds) else none

/-- `parseInt(t)`, R82. -/
def parseInt (t : Text) : Parse Int :=
  match signedValue t with
  | none => .error (.intSyntax t)
  | some v => if inSignedRange v then .ok v else .error (.intRange t)

/-- A parenthesis. -/
def isParen (c : Char) : Bool := c == '(' || c == ')'

/-- `P` and `Q` of a text of the shape `P(Q)`, with no parenthesis inside `P` or `Q` and `)` last (R84). -/
def memShape (t : Text) : Option (Text × Text) :=
  match splitFirst '(' t with
  | none => none
  | some (p, r) =>
    match splitFirst ')' r with
    | some (q, []) => if p.any isParen || q.any isParen then none else some (p, q)
    | _ => none

/-- The offset part of a memory operand: "an empty offset means 0" (R84). -/
def parseOffset (p : Text) : Parse Int := if p = [] then .ok 0 else parseInt p

/-- `parseMem(t)`, R84: shape, then offset, then base. -/
def parseMem (t : Text) : Parse (Int × Reg) :=
  match memShape t with
  | none => .error (.memSyntax t)
  | some (p, q) => (parseOffset p).bind fun off => (parseReg q).map fun b => (off, b)

/-- Three register operands, left to right (format RRR of R89). -/
def parseRRR (a b c : Text) : Parse (Reg × Reg × Reg) :=
  (parseReg a).bind fun x => (parseReg b).bind fun y => (parseReg c).map fun z => (x, y, z)

/-- A register and a memory operand, left to right (formats RM-load and RM-store of R89). -/
def parseRM (a m : Text) : Parse (Reg × Int × Reg) :=
  (parseReg a).bind fun x => (parseMem m).map fun om => (x, om.1, om.2)

/-- The operands of a recognised opcode: the operand count first, then the operands from left to right (R86). -/
def decodeOperands (o : Opcode) (args : List Text) : Parse Instr :=
  match o, args with
  | .add, [a, b, c] => (parseRRR a b c).map fun r => .add r.1 r.2.1 r.2.2
  | .sub, [a, b, c] => (parseRRR a b c).map fun r => .sub r.1 r.2.1 r.2.2
  | .li, [a, i] => (parseReg a).bind fun rd => (parseInt i).map fun imm => .li rd imm
  | .lw, [a, m] => (parseRM a m).map fun r => .lw r.1 r.2.1 r.2.2
  | .sw, [a, m] => (parseRM a m).map fun r => .sw r.1 r.2.1 r.2.2
  | .beq, [a, b, lab] => (parseReg a).bind fun x => (parseReg b).map fun y => .beq x y lab
  | .jal, [lab] => .ok (.jal lab)
  | .jal, [a, lab] => (parseReg a).map fun rd => .jalRd rd lab
  | .j, [t] => .ok (if isNat t then .jRel (decimalValue t) else .jLab t)
  | o, _ => .error (.operandCount o.spelling)

/-- `decode(tok, ntok)`, R86. -/
def decodeTokens : List Text → Parse Instr
  | [] => .ok .empty
  | op :: args =>
    match recognise op with
    | none => .ok (.unknown op)
    | some o => decodeOperands o args

/-- The decoding of an instruction string (R80, R86). It depends on the string alone (R87). -/
def decode (s : Text) : Parse Instr := decodeTokens (tokensOf s)

/-- The spelling of a register operand: its decimal index (R81). -/
def regText (r : Reg) : Text := natText r.val

/-- The spelling of a memory operand, `offset(base)` (R84). -/
def memText (off : Int) (base : Reg) : Text := intText off ++ '(' :: (regText base ++ [')'])

/-- The token list of an instruction, by the formats of R89. -/
def Instr.tokens : Instr → List Text
  | .add rd rs1 rs2 => [Opcode.add.spelling, regText rd, regText rs1, regText rs2]
  | .sub rd rs1 rs2 => [Opcode.sub.spelling, regText rd, regText rs1, regText rs2]
  | .li rd imm => [Opcode.li.spelling, regText rd, intText imm]
  | .lw rd off base => [Opcode.lw.spelling, regText rd, memText off base]
  | .sw rs2 off base => [Opcode.sw.spelling, regText rs2, memText off base]
  | .beq rs1 rs2 lab => [Opcode.beq.spelling, regText rs1, regText rs2, lab]
  | .jal lab => [Opcode.jal.spelling, lab]
  | .jalRd rd lab => [Opcode.jal.spelling, regText rd, lab]
  | .jRel n => [Opcode.j.spelling, natText n]
  | .jLab lab => [Opcode.j.spelling, lab]
  | .unknown op => [op]
  | .empty => []

/-- Tokens joined by single spaces. -/
def joinTokens : List Text → Text
  | [] => []
  | [t] => t
  | t :: ts => t ++ ' ' :: joinTokens ts

/-- The instruction string that spells a decoded instruction. -/
def encode (i : Instr) : Text := joinTokens i.tokens

/-- The `n` characters whose codes are the successive bytes of `w`, the least significant byte first: the host's bit numbering
read as text (log entry 4; the spec has no binary encoding, 00_scope.md R6). -/
def textOfBytes : Nat → Nat → Text
  | 0, _ => []
  | n + 1, w => Char.ofNat (w % 256) :: textOfBytes n (w / 256)

/-- The text of the host's instruction of `nbits` bits, one character per whole byte. -/
def tableText (nbits w : Nat) : Text := textOfBytes ((nbits + 7) / 8) w

/-- What the decoder reads from the host's instruction bits: none where the text is not ASCII (R70) or a fatal condition is
raised. -/
def decodeTableWord (nbits w : Nat) : Option Instr :=
  if (tableText nbits w).all isAscii then (decode (tableText nbits w)).toOption else none

end Sys2Proof
end

