-- ==== Sys2Proof/Machine/State.lean ====
section
/-! DEFINITION. Machine/State.lean: the architectural state of spec/10_state.md, and the state after reset. -/

namespace Sys2Proof.Machine

/-- The data memory (20_memory.md R50): the words that are not 0, by rising address. An address that is not listed reads 0. -/
abbrev Memory := List (Nat × Word)

/-- A label table (10_state.md R31): names and instruction indices, one entry per name. -/
abbrev LabelTable := List (Text × Nat)

/-- The fault latch `{valid, code, sub, info, fpc}` (10_state.md R27). -/
structure FaultLatch where
  valid : Bool
  code  : Nat
  sub   : Nat
  info  : FaultInfo
  fpc   : Nat
  deriving DecidableEq, Repr

/-- The unknown-opcode report: `diag_token` and `diag_pc` (44_noop.md R171). -/
structure Report where
  token : Text
  pc    : Nat
  deriving DecidableEq, Repr

/-- The state of the block. `params` holds the model arguments of 00_scope.md R7; every other field is an element of
10_state.md. -/
structure State where
  /-- `x[0]`..`x[31]` (R20); `x[0]` is stored, and forced to 0 by every dispatched instruction (R21) -/
  x         : Vector Word 32
  /-- the program counter, an instruction index (R24) -/
  pc        : Nat
  /-- the data memory (20_memory.md R50) -/
  mem       : Memory
  /-- the fault latch (R27) -/
  fault     : FaultLatch
  /-- "instructions executed" (R28) -/
  ctrInstr  : Nat
  /-- "cycles elapsed" (R28) -/
  ctrCycle  : Nat
  /-- "memory accesses" (R28) -/
  ctrMem    : Nat
  /-- the instruction store, a read-only input (R30); its length is LEN -/
  prog      : List Text
  /-- the label table as declared (R31) -/
  lblExact  : LabelTable
  /-- the uppercase label table (R31) -/
  lblUpper  : LabelTable
  /-- the diagnostic output lines of the last clock edge: `some` when `diag_unknown` is 1 (R35, 44_noop.md R171, log entry 7) -/
  diag      : Option Report
  /-- MEM_ADDR_BOUND and COMMENT_MARKER of this instance (00_scope.md R7, log entry 2) -/
  params    : Config
  deriving DecidableEq, Repr

/-- Reasons for which a step could end without a next state. There is none: every fatal condition of 60_exceptions.md R180 has
an entry that the spec describes (R184), so it is a next state, with the latch loaded. Safe: nothing raises a host fault. -/
inductive Fault : Type
  deriving DecidableEq, Repr

/-- Reasons for which an instruction could be refused. -/
inductive Refusal where
  /-- Raised only by an arm of `exec` that has no meaning yet; no arm raises it. Safe: it stops where the hardware goes on. -/
  | notModelled (mnemonic : String)
  deriving DecidableEq, Repr

/-- The fault latch after reset: `valid = 0`, the other fields 0 or empty (10_state.md R27). -/
def FaultLatch.clear : FaultLatch := { valid := false, code := 0, sub := 0, info := .empty, fpc := 0 }

/-- The machine right after reset (70_reset_and_hazards.md R210, R211), with no program loaded (log entry 5) and the default
parameters of 00_scope.md R7. -/
def State.reset : State where
  x := Vector.replicate 32 0
  pc := 0
  mem := []
  fault := FaultLatch.clear
  ctrInstr := 0
  ctrCycle := 0
  ctrMem := 0
  prog := []
  lblExact := []
  lblUpper := []
  diag := none
  params := Config.standard

end Sys2Proof.Machine
end

