-- ==== Sys2Proof/Machine/Ops.lean ====
section
/-! DEFINITION. Machine/Ops.lean: the named operations over registers, memory and the other state elements; the commit of a step
(spec/40_step_cycle.md R111), the entry into the Faulted state (spec/60_exceptions.md R184) and the only way out of it, reset
(spec/70_reset_and_hazards.md R210). -/

namespace Sys2Proof.Machine

/-! ### Registers -/

/-- `x[i]` (00_scope.md R10). -/
def State.reg (s : State) (r : Reg) : Word := s.x.get r

/-- `x[i] <- v`, the register write port (40_step_cycle.md R116). -/
def State.setReg (s : State) (r : Reg) (v : Word) : State := { s with x := s.x.set r.val v r.isLt }

/-! ### Data memory -/

/-- What an address that is not listed reads as: "Unmapped addresses read as 0" (20_memory.md R50, R66). -/
def Memory.unwritten : Word := 0

/-- `MemRead(addr, 1)` (20_memory.md R54). -/
def Memory.read : Memory → Nat → Word
  | [], _ => Memory.unwritten
  | (b, w) :: m, a => if b = a then w else Memory.read m a

/-- A cell in front of a memory, left out where it holds what an unlisted address reads as. -/
def Memory.cons (a : Nat) (v : Word) (m : Memory) : Memory := if v = Memory.unwritten then m else (a, v) :: m

/-- `MemWrite(addr, 1, v)` (20_memory.md R55), keeping the canonical form. -/
def Memory.write : Memory → Nat → Word → Memory
  | [], a, v => Memory.cons a v []
  | (b, w) :: m, a, v =>
    if a < b then Memory.cons a v ((b, w) :: m)
    else if a = b then Memory.cons a v m
    else (b, w) :: Memory.write m a v

/-- The canonical form: addresses strictly rising, and no entry equal to what an unlisted address reads as. -/
abbrev Memory.wf (m : Memory) : Prop :=
  m.Pairwise (fun c d => c.1 < d.1) ∧ ∀ c ∈ m, c.2 ≠ Memory.unwritten

/-- The data word at an address. -/
def State.memWord (s : State) (a : Nat) : Word := Memory.read s.mem a

/-- A store to data memory. -/
def State.setMem (s : State) (a : Nat) (v : Word) : State := { s with mem := Memory.write s.mem a v }

/-! ### Label tables -/

/-- The index a table binds to a name. -/
def LabelTable.find : LabelTable → Text → Option Nat
  | [], _ => none
  | (n, i) :: t, name => if n = name then some i else LabelTable.find t name

/-- Recording a binding: "insertion overwrites an earlier binding" (30_encoding.md R72). -/
def LabelTable.bind : LabelTable → Text → Nat → LabelTable
  | [], name, i => [(name, i)]
  | (n, j) :: t, name, i => if n = name then (name, i) :: t else (n, j) :: LabelTable.bind t name i

/-! ### Run state -/

/-- LEN, the length of the instruction store (10_state.md R30). -/
def State.len (s : State) : Nat := s.prog.length

/-- The three run states (10_state.md R26). -/
inductive RunState where
  | running | halted | faulted
  deriving DecidableEq, Repr

/-- The encoding of the `state` output (10_state.md R29). -/
def RunState.encoding : RunState → Nat
  | .running => 0
  | .halted => 1
  | .faulted => 2

/-- The run state, derived from pc and the fault latch (10_state.md R26). -/
def State.runState (s : State) : RunState :=
  if s.fault.valid then .faulted else if s.pc < s.len then .running else .halted

/-! ### Fetch -/

/-- The instruction string of the step to be taken, none when the run state is not Running (40_step_cycle.md R110). -/
def State.fetch (s : State) : Option Text :=
  match s.runState with
  | .running => s.prog[s.pc]?
  | .halted => none
  | .faulted => none

/-! ### Diagnostic output -/

/-- The report lasts one cycle (44_noop.md R171): the next clock edge ends it. -/
def State.endReport (s : State) : State := { s with diag := none }

/-! ### Commit (40_step_cycle.md R111) -/

/-- What `execute(d)` returns (R111): the register write, the memory write, the next pc, the number of memory accesses and the
report of an unknown opcode. -/
structure Effect where
  wr        : Option (Reg × Word) := none
  mw        : Option (Nat × Word) := none
  npc       : Nat
  memAccess : Nat := 0
  diag      : Option Report := none
  deriving DecidableEq, Repr

/-- `if wr = (rd, v): x[rd] <- v`. -/
def State.commitReg (s : State) : Option (Reg × Word) → State
  | none => s
  | some (rd, v) => s.setReg rd v

/-- `if mw = (a, v): MemWrite(a, 1, v)`. -/
def State.commitMem (s : State) : Option (Nat × Word) → State
  | none => s
  | some (a, v) => s.setMem a v

/-- The counters of a dispatched instruction (40_step_cycle.md R114). -/
def State.count (s : State) (memAccess : Nat) : State :=
  { s with
    ctrInstr := s.ctrInstr + 1
    ctrCycle := s.ctrCycle + 1
    ctrMem := s.ctrMem + memAccess }

/-- The forcing of register 0 (40_step_cycle.md R117). -/
def State.forceZero (s : State) : State := s.setReg 0 0

/-- `pc <- npc` (40_step_cycle.md R120). -/
def State.setPc (s : State) (npc : Nat) : State := { s with pc := npc }

/-- `if diag: emit the unknown-opcode report` (44_noop.md R171). -/
def State.emit (s : State) : Option Report → State
  | none => s
  | some r => { s with diag := some r }

/-- The commit of a step that raised no fault, in the order of R111. -/
def State.commit (s : State) (e : Effect) : State :=
  (((((s.commitReg e.wr).commitMem e.mw).count e.memAccess).forceZero).setPc e.npc).emit e.diag

/-! ### Fault entry and reset -/

/-- Fault entry (60_exceptions.md R184): nothing is committed, and the latch is loaded with the cause and the pc of the
faulting instruction. -/
def State.enterFault (s : State) (c : FatalCause) : State :=
  { s with fault := { valid := true, code := c.code, sub := c.sub, info := c.info, fpc := s.pc } }

/-- `reset()` (70_reset_and_hazards.md R210), the only way out of Halted and Faulted: everything but the program, the label
tables and the parameters takes its reset value. -/
def State.resetMachine (s : State) : State :=
  { State.reset with prog := s.prog, lblExact := s.lblExact, lblUpper := s.lblUpper, params := s.params }

/-- The end of `execute(d)`: commit, or fault entry (40_step_cycle.md R111). -/
def State.finish (s : State) : Except FatalCause Effect → Host.Outcome State Fault Refusal
  | .ok e => .next (s.commit e)
  | .error c => .next (s.enterFault c)

/-! ### The host's placement of one instruction -/

/-- `s` with the string `t` in the slot at pc (empty strings fill the slots before it that the program does not have) and no
fault pending, so that the next step executes `t`. -/
def State.placeText (s : State) (t : Text) : State :=
  { s with
    prog := s.prog.take s.pc ++ List.replicate (s.pc - s.len) [] ++ t :: s.prog.drop (s.pc + 1)
    fault := { s.fault with valid := false } }

end Sys2Proof.Machine
end

