-- ==== Sys2Proof/Machine/Operands.lean ====
section
/-! DEFINITION. Machine/Operands.lean: the operands as an executing instruction evaluates them: the effective address of
spec/20_memory.md R57, label resolution and the next-pc sources of spec/40_step_cycle.md R119 and R120, and the link value of
spec/43_control_transfer.md R153. -/

namespace Sys2Proof.Machine

/-- `sint(x[b]) + off`, an exact integer (20_memory.md R57). -/
def State.addressSum (s : State) (off : Int) (base : Reg) : Int := sint (s.reg base) + off

/-- Whether an integer is at or above MEM_ADDR_BOUND; never when the bound is none (20_memory.md R51). -/
def Config.atOrAboveBound (p : Config) (ea : Int) : Bool :=
  match p.memAddrBound with
  | none => false
  | some b => decide ((b : Int) ≤ ea)

/-- The effective address of `offset(base)`, range-checked: negative first, then the bound (20_memory.md R57). -/
def State.effectiveAddress (s : State) (off : Int) (base : Reg) : Except FatalCause Nat :=
  if s.addressSum off base < 0 then .error (.negativeAddress (s.addressSum off base))
  else if Config.atOrAboveBound s.params (s.addressSum off base) then
    .error (.addressAboveBound (s.addressSum off base))
  else .ok (s.addressSum off base).toNat

/-- `resolve(name)`: the exact-case table first, then the uppercase one (40_step_cycle.md R119). -/
def State.resolve (s : State) (name : Text) : Except FatalCause Nat :=
  match LabelTable.find s.lblExact name with
  | some i => .ok i
  | none =>
    match LabelTable.find s.lblUpper (upper name) with
    | some i => .ok i
    | none => .error (.labelNotFound name)

/-- The next-pc multiplexer's selects (40_step_cycle.md R120). -/
inductive NextPc where
  | seq
  | label (lab : Text)
  | rel (n : Nat)
  deriving DecidableEq, Repr

/-- The next-pc multiplexer (40_step_cycle.md R120): a label is resolved only when it is selected. -/
def State.nextPc (s : State) : NextPc → Except FatalCause Nat
  | .seq => .ok (s.pc + 1)
  | .label lab => s.resolve lab
  | .rel n => .ok (s.pc + n)

/-- JAL's link value `bv_XLEN(pc + 1)` (43_control_transfer.md R153). -/
def State.linkValue (s : State) : Word := bvXlen (s.pc + 1 : Nat)

end Sys2Proof.Machine
end

