-- ==== Sys2Proof/Machine/Arith.lean ====
section
/-! DEFINITION. Machine/Arith.lean: ADD, SUB and LI (spec/41_arithmetic.md). -/

namespace Sys2Proof.Machine

/-- A result written to rd, and on to pc + 1. -/
def State.finishArith (s : State) (rd : Reg) (v : Word) : Host.Outcome State Fault Refusal :=
  s.finish ((s.nextPc .seq).map fun npc => { wr := some (rd, v), npc := npc })

/-- ADD (R130): the exact signed sum, narrowed to XLEN bits (R133). -/
def execAdd (rd rs1 rs2 : Reg) (s : State) : Host.Outcome State Fault Refusal :=
  s.finishArith rd (bvXlen (sint (s.reg rs1) + sint (s.reg rs2)))

/-- SUB (R131): the exact signed difference, narrowed to XLEN bits (R133). -/
def execSub (rd rs1 rs2 : Reg) (s : State) : Host.Outcome State Fault Refusal :=
  s.finishArith rd (bvXlen (sint (s.reg rs1) - sint (s.reg rs2)))

/-- LI (R132). -/
def execLi (rd : Reg) (imm : Int) (s : State) : Host.Outcome State Fault Refusal :=
  s.finishArith rd (bvXlen imm)

end Sys2Proof.Machine
end

