-- ==== Sys2Proof/Machine/Flags.lean ====
section
/-! DEFINITION. Machine/Flags.lean: the block has no status flag, condition code or predicate register (spec/10_state.md R32), so
no instruction computes one. BEQ compares two registers directly; that comparison is here. -/

namespace Sys2Proof.Machine

/-- "bit-for-bit equality of XLEN-bit values" (43_control_transfer.md R150). -/
def State.regsEqual (s : State) (rs1 rs2 : Reg) : Bool := s.reg rs1 == s.reg rs2

end Sys2Proof.Machine
end

