-- ==== Sys2Proof/Machine/Control.lean ====
section
/-! DEFINITION. Machine/Control.lean: BEQ, JAL and J (spec/43_control_transfer.md). -/

namespace Sys2Proof.Machine

/-- A transfer that writes no register. -/
def State.finishJump (s : State) (sel : NextPc) : Host.Outcome State Fault Refusal :=
  s.finish ((s.nextPc sel).map fun npc => { npc := npc })

/-- A transfer that writes the link value to rd. -/
def State.finishCall (s : State) (rd : Reg) (lab : Text) : Host.Outcome State Fault Refusal :=
  s.finish ((s.nextPc (.label lab)).map fun npc => { wr := some (rd, s.linkValue), npc := npc })

/-- BEQ (R150): the label is resolved only when the registers are equal. -/
def execBeq (rs1 rs2 : Reg) (lab : Text) (s : State) : Host.Outcome State Fault Refusal :=
  s.finishJump (if s.regsEqual rs1 rs2 then .label lab else .seq)

/-- JAL with rd omitted (R152): the link goes to LINK_REG. -/
def execJal (lab : Text) (s : State) : Host.Outcome State Fault Refusal := s.finishCall linkReg lab

/-- JAL with explicit rd (R154). -/
def execJalRd (rd : Reg) (lab : Text) (s : State) : Host.Outcome State Fault Refusal := s.finishCall rd lab

/-- J with a non-negative integer literal (R158). -/
def execJRel (n : Nat) (s : State) : Host.Outcome State Fault Refusal := s.finishJump (.rel n)

/-- J with a label (R160). -/
def execJLab (lab : Text) (s : State) : Host.Outcome State Fault Refusal := s.finishJump (.label lab)

end Sys2Proof.Machine
end

