-- ==== Sys2Proof/Machine/LoadStore.lean ====
section
/-! DEFINITION. Machine/LoadStore.lean: LW and SW (spec/42_load_store.md). -/

namespace Sys2Proof.Machine

/-- LW (R140): the word at the effective address, to rd; one memory access. -/
def execLw (rd : Reg) (off : Int) (base : Reg) (s : State) : Host.Outcome State Fault Refusal :=
  s.finish <| (s.effectiveAddress off base).bind fun a => (s.nextPc .seq).map fun npc =>
    { wr := some (rd, s.memWord a), npc := npc, memAccess := 1 }

/-- SW (R142): rs2's value to the effective address; one memory access. -/
def execSw (rs2 : Reg) (off : Int) (base : Reg) (s : State) : Host.Outcome State Fault Refusal :=
  s.finish <| (s.effectiveAddress off base).bind fun a => (s.nextPc .seq).map fun npc =>
    { mw := some (a, s.reg rs2), npc := npc, memAccess := 1 }

end Sys2Proof.Machine
end

