-- ==== Sys2Proof/Machine/Noop.lean ====
section
/-! DEFINITION. Machine/Noop.lean: the unknown opcode and the empty instruction (spec/44_noop.md). -/

namespace Sys2Proof.Machine

/-- An unknown opcode (R170, R171): a counted no-op that reports its token and its index. -/
def execUnknown (op : Text) (s : State) : Host.Outcome State Fault Refusal :=
  s.finish ((s.nextPc .seq).map fun npc => { npc := npc, diag := some { token := op, pc := s.pc } })

/-- The empty instruction (R172): "`pc <- pc + 1` and nothing else". -/
def execEmpty (s : State) : Host.Outcome State Fault Refusal := .next (s.setPc (s.pc + 1))

end Sys2Proof.Machine
end

