-- ==== Sys2Proof/Machine/Dispatch.lean ====
section
/-! DEFINITION. Machine/Dispatch.lean: one arm per constructor of Instr. -/

namespace Sys2Proof.Machine

def exec (i : Instr) (s : State) : Host.Outcome State Fault Refusal :=
  match i with
  | .add rd rs1 rs2 => Sys2Proof.Machine.execAdd rd rs1 rs2 s
  | .sub rd rs1 rs2 => Sys2Proof.Machine.execSub rd rs1 rs2 s
  | .li rd imm => Sys2Proof.Machine.execLi rd imm s
  | .lw rd off base => Sys2Proof.Machine.execLw rd off base s
  | .sw rs2 off base => Sys2Proof.Machine.execSw rs2 off base s
  | .beq rs1 rs2 lab => Sys2Proof.Machine.execBeq rs1 rs2 lab s
  | .jal lab => Sys2Proof.Machine.execJal lab s
  | .jalRd rd lab => Sys2Proof.Machine.execJalRd rd lab s
  | .jRel n => Sys2Proof.Machine.execJRel n s
  | .jLab lab => Sys2Proof.Machine.execJLab lab s
  | .unknown op => Sys2Proof.Machine.execUnknown op s
  | .empty => Sys2Proof.Machine.execEmpty s

end Sys2Proof.Machine
end

