-- ==== Sys2Proof/Machine/Step.lean ====
section
/-! DEFINITION. Machine/Step.lean: one requested step of the block (spec/40_step_cycle.md R110, R111). -/

namespace Sys2Proof.Machine

/-- One step request. Not Running: no effect (10_state.md R37). Running: the string at pc is decoded and executed, or the fatal
condition that decoding raises is taken (R111). The report of the step before ends (44_noop.md R171). -/
def step (s : State) : Host.Outcome State Fault Refusal :=
  match s.fetch with
  | none => .next s.endReport
  | some t =>
    match decode t with
    | .ok i => exec i s.endReport
    | .error c => .next (s.endReport.enterFault c)

/-- `s` with the host's instruction bits, read as text, where `step` fetches its next instruction (log entries 4 and 5). -/
def State.withFetchWord (s : State) (nbits w : Nat) : State := s.placeText (tableText nbits w)

end Sys2Proof.Machine
end

