-- ==== Sys2Proof/Machine/Loader.lean ====
section
/-! DEFINITION. Machine/Loader.lean: the Program Loader of spec/30_encoding.md R70 to R77, which turns raw lines into the
instruction store and the label tables. -/

namespace Sys2Proof.Machine

/-- The loader's output (10_state.md R30, R31). R71's counter `next` is always the length of `prog`. -/
structure Program where
  prog     : List Text
  lblExact : LabelTable
  lblUpper : LabelTable
  deriving DecidableEq, Repr

/-- The loader before the first line: `next` 0 and both tables empty (R71). -/
def Program.start : Program := { prog := [], lblExact := [], lblUpper := [] }

/-- `prog.append(unquote(s)); next <- next + 1` (R72, R73). -/
def Program.append (p : Program) (s : Text) : Program := { p with prog := p.prog ++ [unquote s] }

/-- The label is recorded in both tables with the value of `next` (R72). -/
def Program.bindLabel (p : Program) (label : Text) : Program :=
  { p with
    lblExact := LabelTable.bind p.lblExact label p.prog.length
    lblUpper := LabelTable.bind p.lblUpper (upper label) p.prog.length }

/-- The line up to the first comment marker (R71). -/
def stripComment (marker : Char) (line : Text) : Text :=
  match splitFirst marker line with
  | some (before, _) => before
  | .none => line

/-- A line after comment removal and trimming that is not empty: with a label (R72) or without one (R73). -/
def Program.addStripped (p : Program) (s : Text) : Program :=
  match splitFirst labelDelim s with
  | .none => p.append s
  | some (label, rest) =>
    if trim rest = [] then p.bindLabel label else (p.bindLabel label).append (trim rest)

/-- One raw line (R71): a blank result is skipped. -/
def Program.addLine (marker : Char) (p : Program) (line : Text) : Program :=
  if trim (stripComment marker line) = [] then p else p.addStripped (trim (stripComment marker line))

/-- All lines, in input order. -/
def Program.ofLines (marker : Char) (lines : List Text) : Program :=
  lines.foldl (Program.addLine marker) Program.start

/-- The loader: refused as a whole on a non-ASCII character (R70), or when the program has 2^(XLEN-1) or more instructions
(R77). -/
def loadProgram (marker : Char) (lines : List Text) : Option Program :=
  if lines.all (·.all isAscii) ∧ (Program.ofLines marker lines).prog.length < lenBound then
    some (Program.ofLines marker lines)
  else .none

/-- The host's `load` (10_state.md R36a), made while `rst` is asserted (70_reset_and_hazards.md R215): the block holds its reset
values and the new program; none when the loader refuses. -/
def State.load (s : State) (lines : List Text) : Option State :=
  (loadProgram s.params.commentMarker lines).map fun p =>
    { s.resetMachine with prog := p.prog, lblExact := p.lblExact, lblUpper := p.lblUpper }

end Sys2Proof.Machine
end

