-- ==== Sys2Proof/Machine/Ports.lean ====
section
/-! DEFINITION. Machine/Ports.lean: the block's clocked interface and the host's reads (spec/10_state.md R35 to R37,
spec/70_reset_and_hazards.md R212). -/

namespace Sys2Proof.Machine

/-- The control inputs at a rising edge of `clk` (R35). -/
structure EdgeInputs where
  rst     : Bool
  stepReq : Bool
  deriving DecidableEq, Repr

/-- A rising edge of `clk`: reset beats a step request at the same edge (70_reset_and_hazards.md R212); without a request
nothing but the one-cycle report ends (44_noop.md R171). -/
def State.clockEdge (s : State) (inp : EdgeInputs) : Host.Outcome State Fault Refusal :=
  if inp.rst then .next s.resetMachine
  else if inp.stepReq then step s
  else .next s.endReport

/-- `registers()`: the 32 registers as signed integers (R22, R36d). -/
def State.registers (s : State) : List Int := s.x.toList.map sint

/-- The result of `metrics()` (R28). -/
structure Metrics where
  instructions   : Nat
  cycles         : Nat
  memoryAccesses : Nat
  deriving DecidableEq, Repr

/-- `metrics()` (R28, R36d). -/
def State.metrics (s : State) : Metrics :=
  { instructions := s.ctrInstr, cycles := s.ctrCycle, memoryAccesses := s.ctrMem }

/-- The output ports that show the state after the last completed edge, and the report of that edge (R35). -/
structure Outputs where
  state       : Nat
  faultCode   : Nat
  faultSub    : Nat
  faultInfo   : FaultInfo
  faultPc     : Nat
  regs        : List Int
  metrics     : Metrics
  diagUnknown : Bool
  diagToken   : Text
  diagPc      : Nat
  deriving DecidableEq, Repr

/-- The values on the output ports (R35). `diag_token` and `diag_pc` are empty and 0 when `diag_unknown` is 0. -/
def State.outputs (s : State) : Outputs where
  state := s.runState.encoding
  faultCode := s.fault.code
  faultSub := s.fault.sub
  faultInfo := s.fault.info
  faultPc := s.fault.fpc
  regs := s.registers
  metrics := s.metrics
  diagUnknown := s.diag.isSome
  diagToken := (s.diag.map Report.token).getD []
  diagPc := (s.diag.map Report.pc).getD 0

/-- The instruction-store port: `imem_idx` is pc, `imem_text` is `prog[pc]` (R35). -/
def State.imemPort (s : State) : Nat × Option Text := (s.pc, s.prog[s.pc]?)

/-- The label-table lookup port: the hits in the exact and in the uppercase table (R35). -/
def State.labelPort (s : State) (name : Text) : Option Nat × Option Nat :=
  (LabelTable.find s.lblExact name, LabelTable.find s.lblUpper (upper name))

/-- The host's debug read of pc (R36f). -/
def State.debugPc (s : State) : Nat := s.pc

/-- The host's debug read of the fault latch (R36f). -/
def State.debugFault (s : State) : FaultLatch := s.fault

/-- The host's debug read of a data address (R36f). DESIGN CHOICE (log entry 17): an address at or above MEM_ADDR_BOUND, which
names no word (20_memory.md R51, R54), reads like any other, without a range check; no rule says what the host sees there. -/
def State.debugMem (s : State) (a : Nat) : Word := s.memWord a

end Sys2Proof.Machine
end

