-- ==== Sys2Proof/Safety.lean ====
section
/-! DEFINITION. Safety.lean: the vocabulary of the claims about the machine: what a step changes and keeps, the invariant of its
states, its runs, and the spec-side readings (digit strings, register sets of an instruction) that claims compare the model
with. -/

namespace Sys2Proof

/-! ### Spec-side readings -/

/-- `t` matches `[0-9]+` (spec/30_encoding.md R81, R83). -/
def DigitString (t : Text) : Prop := t ≠ [] ∧ ∀ c ∈ t, '0' ≤ c ∧ c ≤ '9'

/-- The positional decimal value of a string of digits, by the library's `Nat.ofDigits` (least significant digit first). -/
def digitsNumber (t : Text) : Nat := Nat.ofDigits 10 (t.reverse.map fun c => c.toNat - '0'.toNat)

/-- Every character of `t` is a separator (00_scope.md R11). -/
def AllSeparators (t : Text) : Prop := ∀ c ∈ t, isSeparator c = true

/-- A run of non-separator characters that is not empty. -/
def SeparatorFree (t : Text) : Prop := t ≠ [] ∧ ∀ c ∈ t, isSeparator c = false

/-- No character of `t` is a parenthesis. -/
def ParenFree (t : Text) : Prop := '(' ∉ t ∧ ')' ∉ t

/-- The register an instruction writes (10_state.md R22). -/
def Instr.dest : Instr → Option Reg
  | .add rd _ _ => some rd
  | .sub rd _ _ => some rd
  | .li rd _ => some rd
  | .lw rd _ _ => some rd
  | .sw _ _ _ => none
  | .beq _ _ _ => none
  | .jal _ => some 1
  | .jalRd rd _ => some rd
  | .jRel _ => none
  | .jLab _ => none
  | .unknown _ => none
  | .empty => none

/-- The registers an instruction reads (10_state.md R22). -/
def Instr.sources : Instr → List Reg
  | .add _ rs1 rs2 => [rs1, rs2]
  | .sub _ rs1 rs2 => [rs1, rs2]
  | .li _ _ => []
  | .lw _ _ base => [base]
  | .sw rs2 _ base => [rs2, base]
  | .beq rs1 rs2 _ => [rs1, rs2]
  | .jal _ => []
  | .jalRd _ _ => []
  | .jRel _ => []
  | .jLab _ => []
  | .unknown _ => []
  | .empty => []

/-- Whether an instruction is a load or a store (40_step_cycle.md R114). -/
def Instr.isMemory : Instr → Bool
  | .add _ _ _ => false
  | .sub _ _ _ => false
  | .li _ _ => false
  | .lw _ _ _ => true
  | .sw _ _ _ => true
  | .beq _ _ _ => false
  | .jal _ => false
  | .jalRd _ _ => false
  | .jRel _ => false
  | .jLab _ => false
  | .unknown _ => false
  | .empty => false

namespace Machine

/-! ### What a step changes and keeps -/

/-- From `s` to `t`, rd takes `v` and no other register changes, but register 0 is 0 (40_step_cycle.md R116, R117). -/
def State.RegWritten (s t : State) (rd : Reg) (v : Word) : Prop :=
  t.reg 0 = 0 ∧ ∀ r, r ≠ 0 → t.reg r = if r = rd then v else s.reg r

/-- From `s` to `t` no register changes, but register 0 is 0 (40_step_cycle.md R117). -/
def State.RegsKept (s t : State) : Prop := t.reg 0 = 0 ∧ ∀ r, r ≠ 0 → t.reg r = s.reg r

/-- Every data word reads in `t` as in `s`. -/
def State.MemKept (s t : State) : Prop := ∀ a, t.memWord a = s.memWord a

/-- The read-only inputs and the parameters are those of `s` (10_state.md R30, R31). -/
def State.InputsKept (s t : State) : Prop :=
  t.prog = s.prog ∧ t.lblExact = s.lblExact ∧ t.lblUpper = s.lblUpper ∧ t.params = s.params

/-- From `s` to `t` one instruction is dispatched without a fault: the next pc, the counters (40_step_cycle.md R114), the inputs
and the fault latch. -/
def State.Dispatched (s t : State) (npc accesses : Nat) : Prop :=
  t.pc = npc ∧ t.ctrInstr = s.ctrInstr + 1 ∧ t.ctrCycle = s.ctrCycle + 1 ∧ t.ctrMem = s.ctrMem + accesses ∧
    s.InputsKept t ∧ t.fault = s.fault

/-- From `s` to `t` the fatal condition `c` is entered (60_exceptions.md R184): the latch is loaded, and nothing else changes. -/
def State.FaultedBy (s t : State) (c : FatalCause) : Prop :=
  t = { s with fault := { valid := true, code := c.code, sub := c.sub, info := c.info, fpc := s.pc } }

/-! ### Invariant -/

/-- One entry per name. -/
abbrev LabelTable.distinct (l : LabelTable) : Prop := (l.map Prod.fst).Nodup

/-- Every index lies in [0, n] (10_state.md R31). -/
abbrev LabelTable.within (l : LabelTable) (n : Nat) : Prop := ∀ e ∈ l, e.2 ≤ n

/-- The rows of 60_exceptions.md R180 that can be raised, as values of `code`, `sub` and `info`. -/
def FaultLatch.isTableRow (f : FaultLatch) : Bool :=
  match f.code, f.info with
  | 1, .token _ => 1 ≤ f.sub && f.sub ≤ 6
  | 2, .token _ => f.sub == 0
  | 3, .address ea => (f.sub == 1 && decide (ea < 0)) || (f.sub == 2 && decide (0 ≤ ea))
  | _, _ => false

/-- The program part of the invariant: what the loader guarantees (30_encoding.md R70, R76, R77; 10_state.md R31). -/
structure State.ProgramInv (s : State) : Prop where
  lenBelow      : s.len < lenBound
  ascii         : ∀ t ∈ s.prog, t.all isAscii = true
  exactDistinct : s.lblExact.distinct
  upperDistinct : s.lblUpper.distinct
  exactWithin   : s.lblExact.within s.len
  upperWithin   : s.lblUpper.within s.len

/-- The invariant of the machine's states at an instruction boundary. -/
structure State.Inv (s : State) : Prop where
  /-- register 0 is 0 (40_step_cycle.md R118) -/
  zero       : s.reg 0 = 0
  /-- the memory is in canonical form -/
  memForm    : Memory.wf s.mem
  /-- no word at or above MEM_ADDR_BOUND (20_memory.md R51) -/
  memBelow   : ∀ c ∈ s.mem, Config.atOrAboveBound s.params c.1 = false
  /-- `ctr_instr = ctr_cycle` (40_step_cycle.md R115) -/
  cycles     : s.ctrCycle = s.ctrInstr
  /-- `ctr_mem <= ctr_instr` (10_state.md R29) -/
  accesses   : s.ctrMem ≤ s.ctrInstr
  /-- the program is one that the loader makes -/
  program    : s.ProgramInv
  /-- a valid latch holds a row of 60_exceptions.md R180 -/
  latchRow   : s.fault.valid = true → s.fault.isTableRow = true
  /-- a fault freezes pc at the faulting instruction (60_exceptions.md R184) -/
  latchPc    : s.fault.valid = true → s.fault.fpc = s.pc ∧ s.pc < s.len
  /-- a report is of the unknown opcode just passed (44_noop.md R171) -/
  report     : ∀ r, s.diag = some r → recognise r.token = none ∧ s.pc = r.pc + 1

/-! ### Runs -/

/-- The state after one step request; `s` itself where `step` answers no next state. -/
def State.after (s : State) : State :=
  match step s with
  | .next t => t
  | .fault _ => s
  | .refused _ => s

/-- The state after `k` step requests: the host's `run` with a budget (70_reset_and_hazards.md R222). -/
def State.afterSteps : Nat → State → State
  | 0, s => s
  | k + 1, s => State.afterSteps k s.after

/-- A run from `s` ends in `t` (70_reset_and_hazards.md R220): some number of steps leads to `t`, and `t` is not Running. -/
def State.RunEndsIn (s t : State) : Prop := ∃ k, State.afterSteps k s = t ∧ t.runState ≠ .running

/-- A run that never faults: what counts as a safe run. -/
def State.SafeRun (s : State) : Prop := ∀ k, (State.afterSteps k s).runState ≠ .faulted

/-- The instruction that the next step dispatches: its token list is not empty and it completes without a fault (00_scope.md,
glossary, "Dispatched instruction"). -/
def State.dispatches (s : State) : Option Instr :=
  match s.fetch with
  | none => none
  | some t =>
    match decode t with
    | .error _ => none
    | .ok .empty => none
    | .ok i => if s.after.fault.valid then none else some i

/-- The number of dispatched instructions among the next `k` steps. -/
def State.dispatchCount : Nat → State → Nat
  | 0, _ => 0
  | k + 1, s => (if s.dispatches.isSome then 1 else 0) + State.dispatchCount k s.after

/-- The number of dispatched LW and SW instructions among the next `k` steps. -/
def State.accessCount : Nat → State → Nat
  | 0, _ => 0
  | k + 1, s => (if s.dispatches.any Instr.isMemory then 1 else 0) + State.accessCount k s.after

/-- The store that the next step makes: address and value. -/
def State.storeOf (s : State) : Option (Nat × Word) :=
  match s.dispatches with
  | some (.sw rs2 off base) => (s.effectiveAddress off base).toOption.map fun a => (a, s.reg rs2)
  | _ => none

/-- The value of the latest store to `a` among the next `k` steps, or none if there is none. -/
def State.latestStore : Nat → State → Nat → Option Word
  | 0, _, _ => none
  | k + 1, s, a =>
    match State.latestStore k s.after a with
    | some v => some v
    | none =>
      match s.storeOf with
      | some (b, v) => if b = a then some v else none
      | none => none

/-- The state after a sequence of clock edges. -/
def State.afterEdges : List EdgeInputs → State → State
  | [], s => s
  | e :: es, s =>
    match s.clockEdge e with
    | .next t => State.afterEdges es t
    | .fault _ => s
    | .refused _ => s

end Machine

end Sys2Proof
end

