-- ==== Sys2Proof/Certificates/Slice0/Obligations.lean ====
section
/-! DEFINITION. Certificates/Slice0/Obligations.lean: the statements about the machine. Each docstring names the rules of spec/ it
formalises. Nothing is proved here. -/

open Sys2Proof Sys2Proof.Machine

/-! ### Reset, loading, and the clocked interface -/

/-- 70_reset_and_hazards.md R210: the table of reset values, and the run state after reset. -/
def Obligations.ResetGivesResetValues : Prop :=
  ∀ s : State,
    (∀ r, s.resetMachine.reg r = 0) ∧ (∀ a, s.resetMachine.memWord a = 0) ∧ s.resetMachine.pc = 0 ∧
    s.resetMachine.ctrInstr = 0 ∧ s.resetMachine.ctrCycle = 0 ∧ s.resetMachine.ctrMem = 0 ∧
    s.resetMachine.fault.valid = false ∧ s.resetMachine.diag = none ∧ s.InputsKept s.resetMachine ∧
    s.resetMachine.runState = if 0 < s.len then .running else .halted

/-- 70_reset_and_hazards.md R211: machine creation gives the reset state of the loaded program. That the model's own
`State.reset` has the empty program is the model's choice (log entry 5); with it the block is Halted from reset (10_state.md
R25), and the fields of the latch beside `valid` are 0 or empty (10_state.md R27). -/
def Obligations.FreshMachineIsItsOwnReset : Prop :=
  State.reset.resetMachine = State.reset ∧ State.reset.prog = [] ∧ State.reset.runState = .halted ∧
    State.reset.fault = { valid := false, code := 0, sub := 0, info := .empty, fpc := 0 }

/-- The invariant holds of the machine right after reset, whatever the state before, for every program that the loader makes
(30_encoding.md R70, R76, R77; 70_reset_and_hazards.md R210), and so of `State.reset`, whose program is the empty one (log
entry 5). -/
def Obligations.ResetStateSatisfiesInv : Prop :=
  State.reset.Inv ∧ ∀ s : State, s.ProgramInv → s.resetMachine.Inv

/-- Every step from a state with the invariant leads to a state with the invariant: register 0 is 0 (40_step_cycle.md R118), the
memory is canonical and below its bound (20_memory.md R51), the counters agree (R115), the program stays one the loader makes
(10_state.md R30, R31), a valid latch holds a row of 60_exceptions.md R180 and the pc of the faulting instruction (R184), and a
report is of the unknown opcode just passed (44_noop.md R171). -/
def Obligations.StepKeepsInv : Prop :=
  ∀ s t : State, s.Inv → step s = .next t → t.Inv

/-- What the loader admits, loaded into any machine, satisfies the invariant: label indices in [0, LEN] (30_encoding.md R76),
LEN below 2^(XLEN-1) (R77), ASCII text (R70), and the reset values (70_reset_and_hazards.md R210, R215). -/
def Obligations.LoadEstablishesInv : Prop :=
  ∀ (s t : State) (lines : List Text), s.load lines = some t → t.Inv ∧ t.pc = 0 ∧ t.fault.valid = false

/-- 70_reset_and_hazards.md R213 (an inference the spec marks as its own): whatever a block has run before, after reset it goes
through the states of a block freshly reset with the same program. -/
def Obligations.ResetReproducesRun : Prop :=
  ∀ (s : State) (j k : Nat),
    State.afterSteps k (State.afterSteps j s).resetMachine = State.afterSteps k s.resetMachine

/-- 70_reset_and_hazards.md R212, 10_state.md R35: at an edge, `rst` acts whatever the run state and beats a step request; a step
request alone is one step; with neither, nothing but the one-cycle report ends (44_noop.md R171); an edge without `rst` never
leaves Halted or Faulted. That an edge with neither input still ends the report is the model's reading (log entry 14) of its
choice to hold the report in the state (log entry 7). -/
def Obligations.ClockEdgeResetBeatsStep : Prop :=
  ∀ s : State,
    (∀ req, s.clockEdge { rst := true, stepReq := req } = .next s.resetMachine) ∧
    s.clockEdge { rst := false, stepReq := true } = step s ∧
    s.clockEdge { rst := false, stepReq := false } = .next { s with diag := none } ∧
    (s.runState ≠ .running → ∀ req t, s.clockEdge { rst := false, stepReq := req } = .next t →
      t.runState = s.runState)

/-- 10_state.md R37: a step request while Halted or Faulted has no effect and produces no diagnostic. -/
def Obligations.StepRequestWhileNotRunning : Prop :=
  ∀ s : State, s.runState ≠ .running → step s = .next { s with diag := none }

/-- 10_state.md R26, 60_exceptions.md R189: no sequence of clock edges without reset leaves Halted or Faulted or changes
anything but the report of the cycle before; an edge with reset gives the reset state. -/
def Obligations.OnlyResetLeavesTerminalStates : Prop :=
  ∀ (s : State) (es : List EdgeInputs), s.runState ≠ .running → (∀ e ∈ es, e.rst = false) →
    { State.afterEdges es s with diag := none } = { s with diag := none } ∧
    ∀ req, State.afterEdges (es ++ [{ rst := true, stepReq := req }]) s = s.resetMachine

/-- 10_state.md R26: the three run states, derived from pc and the fault latch; no step leaves Halted or Faulted. -/
def Obligations.RunStateFromPcAndLatch : Prop :=
  ∀ s : State,
    (s.runState = .running ↔ s.fault.valid = false ∧ s.pc < s.prog.length) ∧
    (s.runState = .halted ↔ s.fault.valid = false ∧ s.prog.length ≤ s.pc) ∧
    (s.runState = .faulted ↔ s.fault.valid = true) ∧
    (s.runState ≠ .running → ∀ k, (State.afterSteps k s).runState = s.runState) ∧
    (s.resetMachine.runState = if 0 < s.prog.length then .running else .halted)

/-- 10_state.md R22, R28, R29, R35, R36: the host's reads: 32 signed registers, the three counters, the debug reads of pc, the
latch and any data address, the output ports with the encoding of the run state, and the two read ports of the program. That
the debug read of an address at or above MEM_ADDR_BOUND gives a word at all is the model's choice (log entry 17). -/
def Obligations.HostReadsShowState : Prop :=
  ∀ s : State,
    s.registers.length = 32 ∧ (∀ r : Reg, s.registers[r.val]? = some (s.reg r).toInt) ∧
    s.metrics = { instructions := s.ctrInstr, cycles := s.ctrCycle, memoryAccesses := s.ctrMem } ∧
    s.debugPc = s.pc ∧ s.debugFault = s.fault ∧ (∀ a, s.debugMem a = s.memWord a) ∧
    (s.runState = .running → s.outputs.state = 0) ∧ (s.runState = .halted → s.outputs.state = 1) ∧
    (s.runState = .faulted → s.outputs.state = 2) ∧
    s.outputs.faultCode = s.fault.code ∧ s.outputs.faultSub = s.fault.sub ∧ s.outputs.faultInfo = s.fault.info ∧
    s.outputs.faultPc = s.fault.fpc ∧ s.outputs.regs = s.registers ∧ s.outputs.metrics = s.metrics ∧
    (s.outputs.diagUnknown = true ↔ s.diag ≠ none) ∧
    (∀ r, s.diag = some r → s.outputs.diagToken = r.token ∧ s.outputs.diagPc = r.pc) ∧
    s.imemPort = (s.pc, s.prog[s.pc]?) ∧
    ∀ name, s.labelPort name = (LabelTable.find s.lblExact name, LabelTable.find s.lblUpper (upper name))

/-! ### The step -/

/-- 40_step_cycle.md R110, R111: a step of a Running block reads `prog[pc]`; if it decodes to `i`, the step is `exec i`, else the
fatal condition that decoding raises is entered. Around `exec` the step ends the report of the cycle before (44_noop.md R171). -/
def Obligations.StepRunsDecodedInstruction : Prop :=
  ∀ (s : State) (txt : Text), s.runState = .running → s.prog[s.pc]? = some txt →
    (∀ i, decode txt = .ok i → step s = exec i { s with diag := none }) ∧
    (∀ c, decode txt = .error c → ∃ t, step s = .next t ∧ ({ s with diag := none } : State).FaultedBy t c)

/-- 30_encoding.md R92, 60_exceptions.md R184: no opcode is illegal and every fatal condition has an entry, so a step request
always leads to a next state, whatever the program text. -/
def Obligations.StepAlwaysHasNextState : Prop :=
  ∀ s : State, step s = .next s.after

/-- 60_exceptions.md R184: a step that faults commits nothing and loads the latch with the cause and its own pc; the run state
becomes Faulted, and no further step is taken. -/
def Obligations.FaultEntryIsPrecise : Prop :=
  ∀ s t : State, s.runState = .running → step s = .next t → t.fault.valid = true →
    (∃ c, ({ s with diag := none } : State).FaultedBy t c) ∧
    t.x = s.x ∧ t.mem = s.mem ∧ t.pc = s.pc ∧ t.ctrInstr = s.ctrInstr ∧ t.ctrCycle = s.ctrCycle ∧
    t.ctrMem = s.ctrMem ∧ s.InputsKept t ∧ t.fault.fpc = s.pc ∧ t.runState = .faulted ∧ step t = .next t

/-- 60_exceptions.md R180: the latch of a faulting step holds a row of the table, raised by an instruction of that row: a decode
fault (code 1) of an opcode of that row, with its sub-code and token; LABEL_NOT_FOUND (code 2) by a BEQ that is taken, a JAL or a J whose label is in
neither table, with the label; ADDRESS_FAULT (code 3) by LW or SW, with the effective address. -/
def Obligations.FaultLatchFollowsCauseTable : Prop :=
  ∀ s t : State, s.runState = .running → step s = .next t → t.fault.valid = true →
    ∃ txt, s.prog[s.pc]? = some txt ∧ t.fault.fpc = s.pc ∧
      ((∃ tok sub op args, tokensOf txt = op :: args ∧ decode txt = .error (match sub with
            | 1 => .operandCount tok
            | 2 => .regSyntax tok
            | 3 => .regRange tok
            | 4 => .intSyntax tok
            | 5 => .intRange tok
            | _ => .memSyntax tok) ∧
          (match sub with
            | 1 => tok = op ∧ op ∈ ["ADD".toList, "SUB".toList, "LI".toList, "LW".toList, "SW".toList,
                "BEQ".toList, "JAL".toList, "J".toList]
            | 2 | 3 => op ∈ ["ADD".toList, "SUB".toList, "LI".toList, "LW".toList, "SW".toList, "BEQ".toList] ∨
                (op = "JAL".toList ∧ args.length = 2)
            | 4 | 5 => op ∈ ["LI".toList, "LW".toList, "SW".toList]
            | _ => op ∈ ["LW".toList, "SW".toList]) ∧
          1 ≤ sub ∧ sub ≤ 6 ∧ t.fault.code = 1 ∧ t.fault.sub = sub ∧ t.fault.info = .token tok) ∨
       (∃ i lab, decode txt = .ok i ∧
          (i = .jal lab ∨ (∃ rd, i = .jalRd rd lab) ∨ i = .jLab lab ∨
            ∃ rs1 rs2, i = .beq rs1 rs2 lab ∧ s.reg rs1 = s.reg rs2) ∧
          LabelTable.find s.lblExact lab = none ∧ LabelTable.find s.lblUpper (upper lab) = none ∧
          t.fault.code = 2 ∧ t.fault.sub = 0 ∧ t.fault.info = .token lab) ∨
       (∃ i off base, decode txt = .ok i ∧ ((∃ rd, i = .lw rd off base) ∨ ∃ rs2, i = .sw rs2 off base) ∧
          t.fault.code = 3 ∧ t.fault.info = .address ((s.reg base).toInt + off) ∧
          ((t.fault.sub = 1 ∧ (s.reg base).toInt + off < 0) ∨
           (t.fault.sub = 2 ∧ 0 ≤ (s.reg base).toInt + off ∧
             ∃ b, s.params.memAddrBound = some b ∧ (b : Int) ≤ (s.reg base).toInt + off))))

/-- 30_encoding.md R87, 60_exceptions.md R187: a step decodes the instruction it executes and no other: replacing the string of
any other slot changes nothing in the step but that slot. -/
def Obligations.UnreachedTextNeverMatters : Prop :=
  ∀ (s t : State) (j : Nat) (txt : Text), j ≠ s.pc → step s = .next t →
    step { s with prog := s.prog.set j txt } = .next { t with prog := s.prog.set j txt }

/-- 40_step_cycle.md R113: the outcome of a step is a function of registers, memory, pc, counters, program and label tables (and
of the instance's parameters): two Running states that agree on these have outcomes that agree on these, on the report, and on
whether and how the step faults. -/
def Obligations.StepDependsOnArchitecturalState : Prop :=
  ∀ s s' : State, s.runState = .running → s'.runState = .running →
    ({ s' with fault := s.fault, diag := s.diag } : State) = s →
    ∃ t t', step s = .next t ∧ step s' = .next t' ∧
      ({ t' with fault := t.fault } : State) = t ∧ t'.fault.valid = t.fault.valid ∧
      (t.fault.valid = true → t'.fault = t.fault)

/-- 10_state.md R30, R31, 20_memory.md R64: no step changes the instruction store or the label tables; no store is ever seen by a
fetch. -/
def Obligations.ReadOnlyInputsNeverChange : Prop :=
  ∀ (k : Nat) (s : State), s.InputsKept (State.afterSteps k s)

/-- 40_step_cycle.md R117: after every dispatched instruction register 0 is 0, whatever it held before and whatever the
instruction wrote; the empty instruction skips this and writes no register. -/
def Obligations.RegisterZeroForced : Prop :=
  (∀ (i : Instr) (s t : State), i ≠ .empty → exec i s = .next t → t.ctrInstr = s.ctrInstr + 1 → t.reg 0 = 0) ∧
  ∀ s t : State, exec .empty s = .next t → ∀ r, t.reg r = s.reg r

/-- 10_state.md R22: an instruction writes its destination register alone, and what it does depends on the registers it reads
alone: with any other register contents, everything but the register file comes out the same, and a dispatched instruction
writes the same value. -/
def Obligations.RegisterReadAndWriteSets : Prop :=
  ∀ (i : Instr) (s t : State) (x' : Vector Word 32), exec i s = .next t →
    (∀ r, r ≠ 0 → i.dest ≠ some r → t.reg r = s.reg r) ∧
    ((∀ r ∈ i.sources, x'.get r = s.reg r) →
      ∃ t', exec i { s with x := x' } = .next t' ∧ ({ t' with x := t.x } : State) = t ∧
        (t.ctrInstr = s.ctrInstr + 1 → ∀ r, i.dest = some r → t'.reg r = t.reg r))

/-- 20_memory.md R56: only SW changes data memory, at its effective address alone; an instruction that is neither LW nor SW does
not depend on the contents of data memory; LW depends on the one word at its effective address; SW stores over any memory the
same word at the same address, and changes everything else, the latch included, in the same way. -/
def Obligations.DataMemoryAccesses : Prop :=
  (∀ (i : Instr) (s t : State), exec i s = .next t →
    s.MemKept t ∨ ∃ rs2 off base a, i = .sw rs2 off base ∧ s.effectiveAddress off base = .ok a ∧
      ∀ b, b ≠ a → t.memWord b = s.memWord b) ∧
  (∀ (i : Instr) (s t : State) (m : Memory), i.isMemory = false → exec i s = .next t →
    exec i { s with mem := m } = .next { t with mem := m }) ∧
  (∀ (rd base : Reg) (off : Int) (a : Nat) (s t : State) (m : Memory),
    s.effectiveAddress off base = .ok a → Memory.read m a = s.memWord a → exec (.lw rd off base) s = .next t →
    exec (.lw rd off base) { s with mem := m } = .next { t with mem := m }) ∧
  ∀ (rs2 base : Reg) (off : Int) (s t : State) (m : Memory), exec (.sw rs2 off base) s = .next t →
    ∃ t', exec (.sw rs2 off base) { s with mem := m } = .next t' ∧ ({ t' with mem := t.mem } : State) = t ∧
      (∀ a, s.effectiveAddress off base = .ok a →
        (Memory.wf m → t'.memWord a = s.reg rs2) ∧ ∀ b, b ≠ a → t'.memWord b = Memory.read m b) ∧
      ∀ c, s.effectiveAddress off base = .error c → t'.mem = m

/-- 40_step_cycle.md R120: the next-pc multiplexer, for every instruction that does not fault; a BEQ that is not taken does not
resolve its label. -/
def Obligations.NextPcMultiplexer : Prop :=
  (∀ (i : Instr) (s t : State), exec i s = .next t → t.fault.valid = false →
    match i with
    | .add _ _ _ => t.pc = s.pc + 1
    | .sub _ _ _ => t.pc = s.pc + 1
    | .li _ _ => t.pc = s.pc + 1
    | .lw _ _ _ => t.pc = s.pc + 1
    | .sw _ _ _ => t.pc = s.pc + 1
    | .beq rs1 rs2 lab => if s.reg rs1 = s.reg rs2 then s.resolve lab = .ok t.pc else t.pc = s.pc + 1
    | .jal lab => s.resolve lab = .ok t.pc
    | .jalRd _ lab => s.resolve lab = .ok t.pc
    | .jRel n => t.pc = s.pc + n
    | .jLab lab => s.resolve lab = .ok t.pc
    | .unknown _ => t.pc = s.pc + 1
    | .empty => t.pc = s.pc + 1) ∧
  ∀ (rs1 rs2 : Reg) (lab : Text) (s : State), s.reg rs1 ≠ s.reg rs2 →
    ∃ t, exec (.beq rs1 rs2 lab) s = .next t ∧ t.pc = s.pc + 1 ∧ t.fault = s.fault

/-- 40_step_cycle.md R121: after a step that does not fault the block is Halted exactly when the new pc is at or above LEN; a
target equal to LEN halts it without a fault. -/
def Obligations.TargetAtLenHalts : Prop :=
  (∀ s t : State, s.runState = .running → step s = .next t → t.fault.valid = false →
    (t.runState = .halted ↔ s.len ≤ t.pc) ∧ (t.runState = .running ↔ t.pc < s.len)) ∧
  ∀ (s : State) (txt lab : Text), s.runState = .running → s.prog[s.pc]? = some txt →
    (decode txt = .ok (.jLab lab) ∨ decode txt = .ok (.jal lab) ∨ (∃ rd, decode txt = .ok (.jalRd rd lab)) ∨
      ∃ rs1 rs2, decode txt = .ok (.beq rs1 rs2 lab) ∧ s.reg rs1 = s.reg rs2) →
    s.resolve lab = .ok s.len →
    ∃ t, step s = .next t ∧ t.runState = .halted ∧ t.pc = s.len ∧ t.fault = s.fault

/-- 40_step_cycle.md R114: a dispatched instruction adds 1 to `ctr_instr` and `ctr_cycle`, LW and SW also to `ctr_mem`; the empty
instruction and a step that faults add nothing. -/
def Obligations.CountersOfOneStep : Prop :=
  ∀ (s t : State) (txt : Text), s.runState = .running → s.prog[s.pc]? = some txt → step s = .next t →
    (t.fault.valid = true ∨ decode txt = .ok .empty →
      t.ctrInstr = s.ctrInstr ∧ t.ctrCycle = s.ctrCycle ∧ t.ctrMem = s.ctrMem) ∧
    ∀ i, t.fault.valid = false → decode txt = .ok i → i ≠ .empty →
      t.ctrInstr = s.ctrInstr + 1 ∧ t.ctrCycle = s.ctrCycle + 1 ∧
      t.ctrMem = s.ctrMem + if i.isMemory then 1 else 0

/-- 40_step_cycle.md R115 (an inference the spec marks as its own): over any run, `ctr_instr` and `ctr_cycle` grow by the number
of dispatched instructions, and `ctr_mem` by the number of LW and SW instructions among them. -/
def Obligations.MetricsCountDispatched : Prop :=
  ∀ (k : Nat) (s : State),
    (State.afterSteps k s).ctrInstr = s.ctrInstr + State.dispatchCount k s ∧
    (State.afterSteps k s).ctrCycle = s.ctrCycle + State.dispatchCount k s ∧
    (State.afterSteps k s).ctrMem = s.ctrMem + State.accessCount k s ∧
    State.accessCount k s ≤ State.dispatchCount k s

/-- 20_memory.md R61: after any run, every address reads as the latest store to it in execution order, or as before the run if
there was none; from reset, as 0 (R66). That the memory before is in its canonical form is the invariant. -/
def Obligations.ReadsSeeLatestStore : Prop :=
  (∀ (k : Nat) (s : State) (a : Nat), Memory.wf s.mem →
    (State.afterSteps k s).memWord a = (State.latestStore k s a).getD (s.memWord a)) ∧
  ∀ (k : Nat) (s : State) (a : Nat),
    (State.afterSteps k s.resetMachine).memWord a = (State.latestStore k s.resetMachine a).getD 0

/-- 42_load_store.md R142, the round trip (an inference the spec marks as its own): `SW rs2, offset(base)` and then
`LW rd, offset(base)` leave rs2's value in rd. That register 0 holds 0 (40_step_cycle.md R118) and the memory is canonical
before is the invariant. -/
def Obligations.StoreThenLoad : Prop :=
  ∀ (s : State) (rs2 rd base : Reg) (off : Int) (a : Nat), s.reg 0 = 0 → Memory.wf s.mem → rd ≠ 0 →
    s.effectiveAddress off base = .ok a →
    ∃ t u, exec (.sw rs2 off base) s = .next t ∧ exec (.lw rd off base) t = .next u ∧
      u.reg rd = s.reg rs2 ∧ u.memWord a = s.reg rs2 ∧ u.pc = s.pc + 2 ∧ u.ctrInstr = s.ctrInstr + 2 ∧
      u.ctrMem = s.ctrMem + 2 ∧ (∀ r, r ≠ rd → u.reg r = s.reg r) ∧ ∀ b, b ≠ a → u.memWord b = s.memWord b

/-- 70_reset_and_hazards.md R221: a self-loop keeps the block Running forever, and each step adds 1 to `ctr_instr` and
`ctr_cycle` and changes nothing else. That register 0 holds 0 before is the invariant (40_step_cycle.md R118), and no report is
on the output lines before. -/
def Obligations.SelfLoopsRunForever : Prop :=
  ∀ (s : State) (txt : Text) (i : Instr), s.runState = .running → s.prog[s.pc]? = some txt → decode txt = .ok i →
    (i = .jRel 0 ∨ (∃ lab, i = .jLab lab ∧ s.resolve lab = .ok s.pc) ∨
      ∃ rs1 rs2 lab, i = .beq rs1 rs2 lab ∧ s.reg rs1 = s.reg rs2 ∧ s.resolve lab = .ok s.pc) →
    s.reg 0 = 0 → s.diag = none →
    (∀ k, State.afterSteps k s = { s with ctrInstr := s.ctrInstr + k, ctrCycle := s.ctrCycle + k }) ∧
    ∀ t, ¬ s.RunEndsIn t

/-- 44_noop.md R171: the report is on the output lines after a step exactly when the step executed an unknown opcode, with its
token and its index. That the lines are a field of the state is the model's choice (log entry 7). -/
def Obligations.ReportOfUnknownOpcode : Prop :=
  ∀ (s t : State) (r : Report), step s = .next t →
    (t.diag = some r ↔ ∃ txt op, s.runState = .running ∧ s.prog[s.pc]? = some txt ∧
      decode txt = .ok (.unknown op) ∧ r = { token := op, pc := s.pc })

/-! ### The instructions -/

/-- 41_arithmetic.md R130: ADD's decoding and its execution. -/
def Obligations.AddSumsTwoRegisters : Prop :=
  (∀ args : List Text, args.length ≠ 3 →
    decodeTokens ("ADD".toList :: args) = .error (.operandCount "ADD".toList)) ∧
  (∀ a b c : Text, decodeTokens ["ADD".toList, a, b, c] =
    (parseReg a).bind fun rd => (parseReg b).bind fun rs1 => (parseReg c).map fun rs2 => .add rd rs1 rs2) ∧
  ∀ (s : State) (rd rs1 rs2 : Reg), ∃ t, exec (.add rd rs1 rs2) s = .next t ∧
    s.RegWritten t rd (BitVec.ofInt 32 ((s.reg rs1).toInt + (s.reg rs2).toInt)) ∧ s.MemKept t ∧
    s.Dispatched t (s.pc + 1) 0 ∧ t.diag = s.diag

/-- 41_arithmetic.md R131: SUB's decoding and its execution, `rs1 - rs2`. -/
def Obligations.SubSubtractsSecondRegister : Prop :=
  (∀ args : List Text, args.length ≠ 3 →
    decodeTokens ("SUB".toList :: args) = .error (.operandCount "SUB".toList)) ∧
  (∀ a b c : Text, decodeTokens ["SUB".toList, a, b, c] =
    (parseReg a).bind fun rd => (parseReg b).bind fun rs1 => (parseReg c).map fun rs2 => .sub rd rs1 rs2) ∧
  ∀ (s : State) (rd rs1 rs2 : Reg), ∃ t, exec (.sub rd rs1 rs2) s = .next t ∧
    s.RegWritten t rd (BitVec.ofInt 32 ((s.reg rs1).toInt - (s.reg rs2).toInt)) ∧ s.MemKept t ∧
    s.Dispatched t (s.pc + 1) 0 ∧ t.diag = s.diag

/-- 41_arithmetic.md R132: LI's decoding and its execution; an immediate that decoding admits reads back exactly. -/
def Obligations.LiLoadsImmediate : Prop :=
  (∀ args : List Text, args.length ≠ 2 →
    decodeTokens ("LI".toList :: args) = .error (.operandCount "LI".toList)) ∧
  (∀ a b : Text, decodeTokens ["LI".toList, a, b] =
    (parseReg a).bind fun rd => (parseInt b).map fun imm => .li rd imm) ∧
  (∀ (s : State) (rd : Reg) (imm : Int), ∃ t, exec (.li rd imm) s = .next t ∧
    s.RegWritten t rd (BitVec.ofInt 32 imm) ∧ s.MemKept t ∧ s.Dispatched t (s.pc + 1) 0 ∧ t.diag = s.diag) ∧
  ∀ (s : State) (rd : Reg) (imm : Int), rd ≠ 0 → -2147483648 ≤ imm → imm ≤ 2147483647 →
    ∃ t, exec (.li rd imm) s = .next t ∧ (t.reg rd).toInt = imm

/-- 42_load_store.md R140: LW's decoding and its execution, with the effective address of 20_memory.md R57. -/
def Obligations.LwLoadsWord : Prop :=
  (∀ args : List Text, args.length ≠ 2 →
    decodeTokens ("LW".toList :: args) = .error (.operandCount "LW".toList)) ∧
  (∀ a m : Text, decodeTokens ["LW".toList, a, m] =
    (parseReg a).bind fun rd => (parseMem m).map fun p => .lw rd p.1 p.2) ∧
  (∀ (s : State) (rd base : Reg) (off : Int) (a : Nat), s.effectiveAddress off base = .ok a →
    ∃ t, exec (.lw rd off base) s = .next t ∧ s.RegWritten t rd (s.memWord a) ∧ s.MemKept t ∧
      s.Dispatched t (s.pc + 1) 1 ∧ t.diag = s.diag) ∧
  ∀ (s : State) (rd base : Reg) (off : Int) (c : FatalCause), s.effectiveAddress off base = .error c →
    ∃ t, exec (.lw rd off base) s = .next t ∧ s.FaultedBy t c

/-- 42_load_store.md R142: SW's decoding and its execution: rs2's value to the word at the effective address, every other word
as before. That the memory of the state before is in its canonical form is the invariant (log entry 3). -/
def Obligations.SwStoresWord : Prop :=
  (∀ args : List Text, args.length ≠ 2 →
    decodeTokens ("SW".toList :: args) = .error (.operandCount "SW".toList)) ∧
  (∀ a m : Text, decodeTokens ["SW".toList, a, m] =
    (parseReg a).bind fun rs2 => (parseMem m).map fun p => .sw rs2 p.1 p.2) ∧
  (∀ (s : State) (rs2 base : Reg) (off : Int) (a : Nat), s.effectiveAddress off base = .ok a →
    ∃ t, exec (.sw rs2 off base) s = .next t ∧ (Memory.wf s.mem → t.memWord a = s.reg rs2) ∧
      (∀ b, b ≠ a → t.memWord b = s.memWord b) ∧ s.RegsKept t ∧ s.Dispatched t (s.pc + 1) 1 ∧
      t.diag = s.diag) ∧
  ∀ (s : State) (rs2 base : Reg) (off : Int) (c : FatalCause), s.effectiveAddress off base = .error c →
    ∃ t, exec (.sw rs2 off base) s = .next t ∧ s.FaultedBy t c

/-- 43_control_transfer.md R150: BEQ's decoding and its execution. -/
def Obligations.BeqBranchesWhenEqual : Prop :=
  (∀ args : List Text, args.length ≠ 3 →
    decodeTokens ("BEQ".toList :: args) = .error (.operandCount "BEQ".toList)) ∧
  (∀ a b lab : Text, decodeTokens ["BEQ".toList, a, b, lab] =
    (parseReg a).bind fun rs1 => (parseReg b).map fun rs2 => .beq rs1 rs2 lab) ∧
  (∀ (s : State) (rs1 rs2 : Reg) (lab : Text) (n : Nat), s.reg rs1 = s.reg rs2 → s.resolve lab = .ok n →
    ∃ t, exec (.beq rs1 rs2 lab) s = .next t ∧ s.RegsKept t ∧ s.MemKept t ∧ s.Dispatched t n 0 ∧
      t.diag = s.diag) ∧
  (∀ (s : State) (rs1 rs2 : Reg) (lab : Text) (c : FatalCause), s.reg rs1 = s.reg rs2 →
    s.resolve lab = .error c →
    c = .labelNotFound lab ∧ ∃ t, exec (.beq rs1 rs2 lab) s = .next t ∧ s.FaultedBy t c) ∧
  ∀ (s : State) (rs1 rs2 : Reg) (lab : Text), s.reg rs1 ≠ s.reg rs2 →
    ∃ t, exec (.beq rs1 rs2 lab) s = .next t ∧ s.RegsKept t ∧ s.MemKept t ∧ s.Dispatched t (s.pc + 1) 0 ∧
      t.diag = s.diag

/-- 43_control_transfer.md R152: JAL with rd omitted: its decoding and its execution, with the link in register 1. -/
def Obligations.JalLinksRegisterOne : Prop :=
  (∀ lab : Text, decodeTokens ["JAL".toList, lab] = .ok (.jal lab)) ∧
  (∀ (s : State) (lab : Text) (n : Nat), s.resolve lab = .ok n →
    ∃ t, exec (.jal lab) s = .next t ∧ s.RegWritten t 1 (BitVec.ofInt 32 (s.pc + 1)) ∧ s.MemKept t ∧
      s.Dispatched t n 0 ∧ t.diag = s.diag) ∧
  ∀ (s : State) (lab : Text) (c : FatalCause), s.resolve lab = .error c →
    c = .labelNotFound lab ∧ ∃ t, exec (.jal lab) s = .next t ∧ s.FaultedBy t c

/-- 43_control_transfer.md R154: JAL with explicit rd: its decoding and its execution. -/
def Obligations.JalRdLinksNamedRegister : Prop :=
  (∀ args : List Text, args.length ≠ 1 → args.length ≠ 2 →
    decodeTokens ("JAL".toList :: args) = .error (.operandCount "JAL".toList)) ∧
  (∀ a lab : Text, decodeTokens ["JAL".toList, a, lab] = (parseReg a).map fun rd => .jalRd rd lab) ∧
  (∀ (s : State) (rd : Reg) (lab : Text) (n : Nat), s.resolve lab = .ok n →
    ∃ t, exec (.jalRd rd lab) s = .next t ∧ s.RegWritten t rd (BitVec.ofInt 32 (s.pc + 1)) ∧ s.MemKept t ∧
      s.Dispatched t n 0 ∧ t.diag = s.diag) ∧
  ∀ (s : State) (rd : Reg) (lab : Text) (c : FatalCause), s.resolve lab = .error c →
    c = .labelNotFound lab ∧ ∃ t, exec (.jalRd rd lab) s = .next t ∧ s.FaultedBy t c

/-- 43_control_transfer.md R158: J with a non-negative integer literal: its decoding and its execution. -/
def Obligations.JumpRelativeAddsLiteral : Prop :=
  (∀ args : List Text, args.length ≠ 1 →
    decodeTokens ("J".toList :: args) = .error (.operandCount "J".toList)) ∧
  (∀ tok : Text, DigitString tok → decodeTokens ["J".toList, tok] = .ok (.jRel (digitsNumber tok))) ∧
  ∀ (s : State) (n : Nat), ∃ t, exec (.jRel n) s = .next t ∧ s.RegsKept t ∧ s.MemKept t ∧
    s.Dispatched t (s.pc + n) 0 ∧ t.diag = s.diag

/-- 43_control_transfer.md R160: J with a label: its decoding and its execution. -/
def Obligations.JumpLabelResolves : Prop :=
  (∀ args : List Text, args.length ≠ 1 →
    decodeTokens ("J".toList :: args) = .error (.operandCount "J".toList)) ∧
  (∀ tok : Text, ¬ DigitString tok → decodeTokens ["J".toList, tok] = .ok (.jLab tok)) ∧
  (∀ (s : State) (lab : Text) (n : Nat), s.resolve lab = .ok n →
    ∃ t, exec (.jLab lab) s = .next t ∧ s.RegsKept t ∧ s.MemKept t ∧ s.Dispatched t n 0 ∧ t.diag = s.diag) ∧
  ∀ (s : State) (lab : Text) (c : FatalCause), s.resolve lab = .error c →
    c = .labelNotFound lab ∧ ∃ t, exec (.jLab lab) s = .next t ∧ s.FaultedBy t c

/-- 44_noop.md R170: an unknown opcode decodes whatever its operands, and executes as a counted no-op with a report. -/
def Obligations.UnknownOpcodeIsCountedNoOp : Prop :=
  (∀ (op : Text) (args : List Text),
    op ∉ ["ADD".toList, "SUB".toList, "LI".toList, "LW".toList, "SW".toList, "BEQ".toList, "JAL".toList,
      "J".toList] →
    decodeTokens (op :: args) = .ok (.unknown op)) ∧
  ∀ (s : State) (op : Text), ∃ t, exec (.unknown op) s = .next t ∧ s.RegsKept t ∧ s.MemKept t ∧
    s.Dispatched t (s.pc + 1) 0 ∧ t.diag = some { token := op, pc := s.pc }

/-- 44_noop.md R172: a string is the empty instruction exactly when it holds nothing but separators; it adds 1 to pc and does
nothing else. -/
def Obligations.EmptyInstructionOnlyAdvances : Prop :=
  (∀ txt : Text, decode txt = .ok .empty ↔ AllSeparators txt) ∧
  ∀ s : State, exec .empty s = .next { s with pc := s.pc + 1 }

/-- 20_memory.md R57: the effective address is an exact integer; a negative one faults first, then one at or above
MEM_ADDR_BOUND when a bound is set. -/
def Obligations.EffectiveAddressIsExact : Prop :=
  ∀ (s : State) (off : Int) (base : Reg),
    ((s.reg base).toInt + off < 0 →
      s.effectiveAddress off base = .error (.negativeAddress ((s.reg base).toInt + off))) ∧
    (∀ b, 0 ≤ (s.reg base).toInt + off → s.params.memAddrBound = some b → (b : Int) ≤ (s.reg base).toInt + off →
      s.effectiveAddress off base = .error (.addressAboveBound ((s.reg base).toInt + off))) ∧
    ∀ a : Nat, (a : Int) = (s.reg base).toInt + off → (∀ b, s.params.memAddrBound = some b → a < b) →
      s.effectiveAddress off base = .ok a

/-- 40_step_cycle.md R119: the exact-case table first, then the uppercase table with the uppercase name, else LABEL_NOT_FOUND
with the name; a resolved index lies in [0, LEN]. That a table holds one entry per name, and indices in [0, LEN], is the
invariant of the program. -/
def Obligations.ResolveExactThenUppercase : Prop :=
  ∀ (s : State) (name : Text), s.lblExact.distinct → s.lblUpper.distinct →
    (∀ i, (name, i) ∈ s.lblExact → s.resolve name = .ok i) ∧
    (name ∉ s.lblExact.map Prod.fst →
      (∀ i, (upper name, i) ∈ s.lblUpper → s.resolve name = .ok i) ∧
      (upper name ∉ s.lblUpper.map Prod.fst → s.resolve name = .error (.labelNotFound name))) ∧
    (s.lblExact.within s.len → s.lblUpper.within s.len → ∀ i, s.resolve name = .ok i → i ≤ s.len)

/-- 43_control_transfer.md R153 (an inference the spec marks as its own): in a program the loader admits, JAL's link reads back
as `pc + 1`. -/
def Obligations.LinkValueIsNextIndex : Prop :=
  ∀ (s : State) (rd : Reg) (lab : Text) (n : Nat), s.ProgramInv → s.pc < s.len → rd ≠ 0 → s.resolve lab = .ok n →
    (∃ t, exec (.jalRd rd lab) s = .next t ∧ (t.reg rd).toInt = s.pc + 1) ∧
    ∃ t, exec (.jal lab) s = .next t ∧ (t.reg 1).toInt = s.pc + 1

/-- 41_arithmetic.md R133: ADD and SUB keep the low 32 bits, never signal overflow, and give the same word whether the operands
are read signed or unsigned. -/
def Obligations.ArithmeticWraps : Prop :=
  ∀ (s : State) (rd rs1 rs2 : Reg), rd ≠ 0 →
    (∃ t, exec (.add rd rs1 rs2) s = .next t ∧ t.fault = s.fault ∧
      (t.reg rd).toNat = ((s.reg rs1).toNat + (s.reg rs2).toNat) % 2 ^ 32 ∧
      ((t.reg rd).toInt - ((s.reg rs1).toInt + (s.reg rs2).toInt)) % 2 ^ 32 = 0) ∧
    ∃ t, exec (.sub rd rs1 rs2) s = .next t ∧ t.fault = s.fault ∧
      ((t.reg rd).toNat : Int) = ((s.reg rs1).toNat - (s.reg rs2).toNat : Int) % 2 ^ 32 ∧
      ((t.reg rd).toInt - ((s.reg rs1).toInt - (s.reg rs2).toInt)) % 2 ^ 32 = 0

/-! ### Decoding -/

/-- 00_scope.md R11: the text primitives: `upper` maps `a`..`z` to `A`..`Z` and leaves every other character; the six whitespace
characters; the separators; `trim`; and `find`, with the pieces before and after the character found. -/
def Obligations.TextPrimitives : Prop :=
  (∀ c : Char, ('a' ≤ c ∧ c ≤ 'z' → (upperChar c).toNat = c.toNat - 32) ∧
    (¬ ('a' ≤ c ∧ c ≤ 'z') → upperChar c = c)) ∧
  (∀ txt : Text, (upper txt).length = txt.length ∧ ∀ k : Nat, (upper txt)[k]? = txt[k]?.map upperChar) ∧
  (∀ c : Char, isWhitespace c = true ↔ c.toNat ∈ [0x20, 0x09, 0x0A, 0x0B, 0x0C, 0x0D]) ∧
  (∀ c : Char, isSeparator c = true ↔ isWhitespace c = true ∨ c = ',') ∧
  (∀ w body w' : Text, (∀ c ∈ w ++ w', isWhitespace c = true) →
    (∀ c, body.head? = some c ∨ body.getLast? = some c → isWhitespace c = false) →
    trim (w ++ body ++ w') = body) ∧
  ∀ (c : Char) (txt : Text),
    (c ∉ txt → splitFirst c txt = none) ∧
    ∀ before rest : Text, c ∉ before → txt = before ++ c :: rest → splitFirst c txt = some (before, rest)

/-- 30_encoding.md R80: the tokens are the maximal runs of non-separator characters of the uppercased string, in order. A string
is written as separators, then tokens with the separators after each; only the last token may have none after it. -/
def Obligations.TokensAreMaximalRuns : Prop :=
  ∀ (txt lead : Text) (runs : List (Text × Text)),
    AllSeparators lead → (∀ p ∈ runs, SeparatorFree p.1 ∧ AllSeparators p.2) →
    (∀ p ∈ runs.dropLast, p.2 ≠ []) →
    upper txt = lead ++ (runs.map fun p => p.1 ++ p.2).flatten →
    tokensOf txt = runs.map Prod.fst

/-- 30_encoding.md R81: the register operand. -/
def Obligations.RegisterOperandGrammar : Prop :=
  ∀ tok : Text,
    (¬ DigitString tok → parseReg tok = .error (.regSyntax tok)) ∧
    (DigitString tok → 31 < digitsNumber tok → parseReg tok = .error (.regRange tok)) ∧
    ∀ r : Reg, DigitString tok → digitsNumber tok = r.val → parseReg tok = .ok r

/-- 30_encoding.md R82: the integer operand. -/
def Obligations.IntegerOperandGrammar : Prop :=
  ∀ tok : Text,
    ((¬ ∃ ds, DigitString ds ∧ (tok = ds ∨ tok = '+' :: ds ∨ tok = '-' :: ds)) →
      parseInt tok = .error (.intSyntax tok)) ∧
    ∀ (ds : Text) (v : Int), DigitString ds →
      (((tok = ds ∨ tok = '+' :: ds) ∧ v = digitsNumber ds) ∨ (tok = '-' :: ds ∧ v = -(digitsNumber ds : Int))) →
      (-2147483648 ≤ v ∧ v ≤ 2147483647 → parseInt tok = .ok v) ∧
      (v < -2147483648 ∨ 2147483647 < v → parseInt tok = .error (.intRange tok))

/-- 30_encoding.md R84: the memory operand: shape, then offset (an empty one is 0), then base. -/
def Obligations.MemoryOperandGrammar : Prop :=
  ∀ tok : Text,
    ((¬ ∃ p q, ParenFree p ∧ ParenFree q ∧ tok = p ++ '(' :: (q ++ [')'])) →
      parseMem tok = .error (.memSyntax tok)) ∧
    ∀ p q : Text, ParenFree p → ParenFree q → tok = p ++ '(' :: (q ++ [')']) →
      parseMem tok =
        (if p = [] then .ok 0 else parseInt p).bind fun off => (parseReg q).map fun b => (off, b)

/-- 30_encoding.md R85, R86, R89: decoding the spelling of a well-formed instruction gives it back, with every operand at every
value. -/
def Obligations.EncodeDecodeRoundTrip : Prop :=
  ∀ i : Instr, i.wellFormed = true → decode (encode i) = .ok i

/-- 30_encoding.md R85: what decodes from ASCII text is a well-formed instruction: its integers are in the signed XLEN range, its
labels uppercase tokens, its unknown opcode none of the eight. -/
def Obligations.DecodedIsWellFormed : Prop :=
  ∀ (txt : Text) (i : Instr), (∀ c ∈ txt, c.toNat < 128) → decode txt = .ok i → i.wellFormed = true

/-- 30_encoding.md R80, R86: decoding does not see the case of letters, nor which separators stand between tokens. -/
def Obligations.DecodeSeesTokensOnly : Prop :=
  (∀ txt : Text, decode (upper txt) = decode txt) ∧
  ∀ (a b : Text) (s s' : Text), s ≠ [] → s' ≠ [] → AllSeparators s → AllSeparators s' →
    decode (a ++ s ++ b) = decode (a ++ s' ++ b)

/-- 95_test_vectors.md T1, T4, T5, T6, T7, T8, T10, T11, T12, T13, T14, A8, A14: strings written out from the formats of
30_encoding.md R89 decode to the instructions they stand for. -/
def Obligations.SampleStringsDecode : Prop :=
  decode "add 1,2, 3".toList = .ok (.add 1 2 3) ∧
  decode "ADD 007 01 0".toList = .ok (.add 7 1 0) ∧
  decode "SUB 7 5 6".toList = .ok (.sub 7 5 6) ∧
  decode "LI 1 -1".toList = .ok (.li 1 (-1)) ∧
  decode "lw 3 -4(31)".toList = .ok (.lw 3 (-4) 31) ∧
  decode "sw 3 (0)".toList = .ok (.sw 3 0 0) ∧
  decode "beq 1 2 5".toList = .ok (.beq 1 2 ['5']) ∧
  decode "jal loop".toList = .ok (.jal "LOOP".toList) ∧
  decode "jal 9, loop".toList = .ok (.jalRd 9 "LOOP".toList) ∧
  decode "j 12".toList = .ok (.jRel 12) ∧
  decode "j +12".toList = .ok (.jLab "+12".toList) ∧
  decode "frob 1 (((".toList = .ok (.unknown "FROB".toList) ∧
  decode " , ,".toList = .ok .empty

/-- 44_noop.md R173, 20_memory.md R62, R63, 30_encoding.md R92: the standard spellings of system, barrier, atomic and other
instructions outside the subset are unknown opcodes, whatever operands follow. -/
def Obligations.StandardSpellingsAreUnknown : Prop :=
  ∀ w ∈ ["ECALL", "EBREAK", "MRET", "SRET", "WFI", "CSRRW", "SFENCE.VMA", "FENCE", "FENCE.I", "LR.W", "SC.W",
      "AMOADD.W", "ADDI", "BNE", "JALR", "NOP", "FADD.S", "ADD.W", "LB", "SB", "MV"],
    decode w.toList = .ok (.unknown w.toList) ∧
    ∀ operands : Text, decode (w.toList ++ ' ' :: operands) = .ok (.unknown w.toList)

/-! ### The loader -/

/-- 30_encoding.md R70, R76, R77: the loader refuses exactly a sequence with a non-ASCII character and a program of
2^(XLEN-1) or more instructions. -/
def Obligations.LoaderRefusals : Prop :=
  ∀ (marker : Char) (lines : List Text),
    loadProgram marker lines = none ↔
      (∃ l ∈ lines, ∃ c ∈ l, 128 ≤ c.toNat) ∨ 2 ^ 31 ≤ (Program.ofLines marker lines).prog.length

/-- 30_encoding.md R71, R72, R73: what one raw line adds to the program: nothing if it is blank after comment removal; an
instruction if it has no label delimiter; else a label, and an instruction if text follows the delimiter. The line is written
as outer whitespace, the part the rules work on, outer whitespace, and a comment. -/
def Obligations.LoaderLineForms : Prop :=
  ∀ (marker : Char) (p : Program) (w body w' tail : Text),
    (∀ c ∈ w ++ w', isWhitespace c = true) → marker ∉ w ++ body ++ w' → (tail = [] ∨ tail.head? = some marker) →
    (∀ c, body.head? = some c ∨ body.getLast? = some c → isWhitespace c = false) →
    (body = [] → p.addLine marker (w ++ body ++ w' ++ tail) = p) ∧
    (body ≠ [] → ':' ∉ body →
      p.addLine marker (w ++ body ++ w' ++ tail) = { p with prog := p.prog ++ [unquote body] }) ∧
    (∀ label, ':' ∉ label → body = label ++ [':'] →
      p.addLine marker (w ++ body ++ w' ++ tail) =
        { p with lblExact := LabelTable.bind p.lblExact label p.prog.length,
                 lblUpper := LabelTable.bind p.lblUpper (upper label) p.prog.length }) ∧
    ∀ (label gap rest : Text) (c : Char), ':' ∉ label → (∀ d ∈ gap, isWhitespace d = true) → isWhitespace c = false →
      body = label ++ ':' :: (gap ++ c :: rest) →
      p.addLine marker (w ++ body ++ w' ++ tail) =
        { prog := p.prog ++ [unquote (c :: rest)],
          lblExact := LabelTable.bind p.lblExact label p.prog.length,
          lblUpper := LabelTable.bind p.lblUpper (upper label) p.prog.length }

/-- 30_encoding.md R75: a later declaration of a name replaces the earlier one, in each table independently, and leaves the other
names. -/
def Obligations.LaterBindingWins : Prop :=
  ∀ (p : Program) (name : Text),
    LabelTable.find (p.bindLabel name).lblExact name = some p.prog.length ∧
    LabelTable.find (p.bindLabel name).lblUpper (upper name) = some p.prog.length ∧
    (∀ other, other ≠ name → LabelTable.find (p.bindLabel name).lblExact other = LabelTable.find p.lblExact other) ∧
    ∀ other, other ≠ upper name →
      LabelTable.find (p.bindLabel name).lblUpper other = LabelTable.find p.lblUpper other

/-- 30_encoding.md R74: `unquote` removes every leading and then every trailing quote character, and nothing else. -/
def Obligations.UnquoteStripsQuotes : Prop :=
  ∀ q body q' : Text, (∀ c ∈ q ++ q', c = '"' ∨ c = '\'') →
    (∀ c, body.head? = some c ∨ body.getLast? = some c → c ≠ '"' ∧ c ≠ '\'') →
    unquote (q ++ body ++ q') = body
end

