-- ==== Sys2Proof/Laws/Text.lean ====
section
/-! SUPPORT. Laws/Text.lean: characters, uppercasing, trimming, the tokenizer, and the decimal spelling and reading of numbers. -/

namespace Sys2Proof

/-! ### Characters -/

theorem toNat_upperChar (c : Char) :
    (upperChar c).toNat = if 97 ≤ c.toNat ∧ c.toNat ≤ 122 then c.toNat - 32 else c.toNat := by
  unfold upperChar
  split
  next h =>
    rw [Char.toNat_ofNat, if_pos]
    exact .inl (by omega)
  next => rfl

theorem char_eq_iff (c d : Char) : c = d ↔ c.toNat = d.toNat :=
  ⟨fun h => h ▸ rfl, fun h => by rw [← Char.ofNat_toNat c, ← Char.ofNat_toNat d, h]⟩

@[simp] theorem upperChar_upperChar (c : Char) : upperChar (upperChar c) = upperChar c := by
  rw [char_eq_iff, toNat_upperChar, toNat_upperChar]
  split_ifs <;> omega

theorem isWhitespace_iff (c : Char) : isWhitespace c = true ↔
    c.toNat = 32 ∨ c.toNat = 9 ∨ c.toNat = 10 ∨ c.toNat = 11 ∨ c.toNat = 12 ∨ c.toNat = 13 := by
  simp only [isWhitespace, Bool.or_eq_true, beq_iff_eq, char_eq_iff]
  rw [or_assoc, or_assoc, or_assoc, or_assoc]
  rfl

theorem isSeparator_iff (c : Char) : isSeparator c = true ↔ isWhitespace c = true ∨ c = ',' := by
  simp [isSeparator]

/-- A character that uppercasing changes is no separator, before or after. -/
theorem isSeparator_upperChar (c : Char) : isSeparator (upperChar c) = isSeparator c := by
  rw [Bool.eq_iff_iff, isSeparator_iff, isSeparator_iff, isWhitespace_iff, isWhitespace_iff, char_eq_iff, char_eq_iff,
    toNat_upperChar]
  change (_ ∨ _ = 44) ↔ (_ ∨ _ = 44)
  split <;> omega

/-- Uppercasing leaves a character that is no lowercase letter. -/
theorem upperChar_eq_self {c : Char} (h : ¬ (97 ≤ c.toNat ∧ c.toNat ≤ 122)) : upperChar c = c := if_neg h

@[simp] theorem upper_upper (s : Text) : upper (upper s) = upper s := by simp [upper]

@[simp] theorem upper_append (s t : Text) : upper (s ++ t) = upper s ++ upper t := by simp [upper]

@[simp] theorem upper_cons (c : Char) (s : Text) : upper (c :: s) = upperChar c :: upper s := rfl

@[simp] theorem upper_nil : upper [] = [] := rfl

/-- A text of characters that are their own uppercase is its own uppercase. -/
theorem upper_eq_self {s : Text} (h : ∀ c ∈ s, upperChar c = c) : upper s = s := by
  rw [upper, List.map_congr_left (g := id) (by simpa using h), List.map_id]

/-! ### Stripping -/

theorem dropWhile_all {p : Char → Bool} {w : Text} (h : ∀ c ∈ w, p c = true) (s : Text) :
    (w ++ s).dropWhile p = s.dropWhile p := by
  induction w with
  | nil => rfl
  | cons c w ih =>
    rw [List.cons_append, List.dropWhile_cons_of_pos (h c List.mem_cons_self)]
    exact ih fun d hd => h d (List.mem_cons_of_mem _ hd)

theorem dropWhile_head {p : Char → Bool} {s : Text} (h : ∀ c, s.head? = some c → p c = false) : s.dropWhile p = s := by
  cases s with
  | nil => rfl
  | cons c s => exact List.dropWhile_cons_of_neg (by simp [h c rfl])

/-- `stripBoth` removes what satisfies `p` at both ends, and nothing else. -/
theorem stripBoth_eq {p : Char → Bool} {w body w' : Text} (hw : ∀ c ∈ w ++ w', p c = true)
    (hb : ∀ c, body.head? = some c ∨ body.getLast? = some c → p c = false) :
    stripBoth p (w ++ body ++ w') = body := by
  have hw1 : ∀ c ∈ w, p c = true := fun c hc => hw c (List.mem_append_left _ hc)
  have hw2 : ∀ c ∈ w'.reverse, p c = true := fun c hc => hw c (List.mem_append_right _ (List.mem_reverse.1 hc))
  unfold stripBoth
  rw [List.append_assoc, dropWhile_all hw1]
  cases body with
  | nil =>
    have : w'.dropWhile p = [] := by
      have := dropWhile_all (p := p) (w := w') (fun c hc => hw c (List.mem_append_right _ hc)) []
      simpa using this
    simp [this]
  | cons b body =>
    rw [dropWhile_head (s := b :: body ++ w') (fun c hc => hb c (.inl (by simpa using hc))), List.reverse_append,
      dropWhile_all hw2, dropWhile_head (s := (b :: body).reverse) (fun c hc => hb c (.inr (by
        rwa [List.head?_reverse] at hc))), List.reverse_reverse]

/-! ### Splitting at a character -/

theorem splitFirst_none {c : Char} {s : Text} (h : c ∉ s) : splitFirst c s = none := by
  induction s with
  | nil => rfl
  | cons d s ih =>
    have hd : d ≠ c := fun e => h (e ▸ List.mem_cons_self)
    simp [splitFirst, hd, ih fun hs => h (List.mem_cons_of_mem _ hs)]

theorem splitFirst_append {c : Char} {s : Text} (h : c ∉ s) (t : Text) : splitFirst c (s ++ c :: t) = some (s, t) := by
  induction s with
  | nil => simp [splitFirst]
  | cons d s ih =>
    have hd : d ≠ c := fun e => h (e ▸ List.mem_cons_self)
    simp [splitFirst, hd, ih fun hs => h (List.mem_cons_of_mem _ hs)]

/-- What a split gives back. -/
theorem splitFirst_some {c : Char} {s a b : Text} (h : splitFirst c s = some (a, b)) : c ∉ a ∧ s = a ++ c :: b := by
  induction s generalizing a with
  | nil => simp [splitFirst] at h
  | cons d s ih =>
    simp only [splitFirst] at h
    split at h
    next e => cases h; exact ⟨by simp, by simp [e]⟩
    next e =>
      cases hs : splitFirst c s with
      | none => simp [hs] at h
      | some q =>
        obtain ⟨a', b'⟩ := q
        simp only [hs, Option.map_some, Option.some.injEq, Prod.mk.injEq] at h
        obtain ⟨rfl, rfl⟩ := h
        have := ih hs
        exact ⟨by simp [this.1, Ne.symm e], by rw [this.2]; rfl⟩

theorem splitFirst_eq_none {c : Char} {s : Text} (h : splitFirst c s = none) : c ∉ s := by
  induction s with
  | nil => simp
  | cons d s ih =>
    simp only [splitFirst] at h
    split at h
    · cases h
    next hd => simp [Ne.symm hd, ih (by simpa using h)]

/-! ### The tokenizer -/

/-- A run without separators extends the token in progress. -/
theorem tokensFrom_run {run : Text} (h : ∀ c ∈ run, isSeparator c = false) (cur s : Text) :
    tokensFrom cur (run ++ s) = tokensFrom (cur ++ run) s := by
  induction run generalizing cur with
  | nil => simp
  | cons c run ih =>
    have hc := h c List.mem_cons_self
    rw [List.cons_append, tokensFrom, hc]
    simpa using ih (fun d hd => h d (List.mem_cons_of_mem _ hd)) (cur ++ [c])

/-- Separators end the token in progress. -/
theorem tokensFrom_seps {seps : Text} (h : AllSeparators seps) (s : Text) : tokensFrom [] (seps ++ s) = tokensFrom [] s := by
  induction seps with
  | nil => rfl
  | cons c seps ih =>
    have hc := h c List.mem_cons_self
    rw [List.cons_append, tokensFrom, hc]
    simpa [flushToken] using ih fun d hd => h d (List.mem_cons_of_mem _ hd)

theorem tokensFrom_flush {seps : Text} (h : AllSeparators seps) (hne : seps ≠ []) (cur s : Text) :
    tokensFrom cur (seps ++ s) = flushToken cur ++ tokensFrom [] s := by
  cases seps with
  | nil => exact absurd rfl hne
  | cons c seps =>
    have hc := h c List.mem_cons_self
    rw [List.cons_append, tokensFrom, hc]
    simp only [if_true]
    rw [tokensFrom_seps fun d hd => h d (List.mem_cons_of_mem _ hd)]

/-- Which separators stand between two texts does not matter, as long as there is one. -/
theorem tokensFrom_any_seps {seps seps' : Text} (h : AllSeparators seps) (h' : AllSeparators seps') (hne : seps ≠ [])
    (hne' : seps' ≠ []) (a b cur : Text) :
    tokensFrom cur (a ++ seps ++ b) = tokensFrom cur (a ++ seps' ++ b) := by
  induction a generalizing cur with
  | nil => simp [tokensFrom_flush h hne, tokensFrom_flush h' hne']
  | cons c a ih =>
    simp only [List.cons_append, tokensFrom, List.append_assoc] at ih ⊢
    split <;> simp [ih]

theorem tokenize_single {t : Text} (h : SeparatorFree t) : tokenize t = [t] := by
  have := tokensFrom_run h.2 [] []
  simpa [tokenize, tokensFrom, flushToken, h.1] using this

/-- A token, one separator, and the rest. -/
theorem tokenize_cons {t : Text} (h : SeparatorFree t) {c : Char} (hc : isSeparator c = true) (s : Text) :
    tokenize (t ++ c :: s) = t :: tokenize s := by
  rw [tokenize, tokensFrom_run h.2, List.nil_append]
  have := tokensFrom_flush (seps := [c]) (by simpa [AllSeparators] using hc) (by simp) t s
  simpa [flushToken, h.1, tokenize] using this

/-- Tokens joined by spaces are those tokens. -/
theorem tokenize_joinTokens {ts : List Text} (h : ∀ t ∈ ts, SeparatorFree t) : tokenize (joinTokens ts) = ts := by
  induction ts with
  | nil => rfl
  | cons t ts ih =>
    have ht := h t List.mem_cons_self
    have hts := ih fun u hu => h u (List.mem_cons_of_mem _ hu)
    cases ts with
    | nil => exact tokenize_single ht
    | cons u ts =>
      change tokenize (t ++ ' ' :: joinTokens (u :: ts)) = _
      rw [tokenize_cons ht (by decide), hts]

/-- Every token is a run of non-separator characters of the text, or continues the token in progress. -/
theorem tokensFrom_mem {t cur s : Text} (hcur : ∀ c ∈ cur, isSeparator c = false) (h : t ∈ tokensFrom cur s) :
    SeparatorFree t ∧ ∀ c ∈ t, c ∈ cur ∨ c ∈ s := by
  induction s generalizing cur with
  | nil =>
    simp only [tokensFrom, flushToken] at h
    split at h
    · cases h
    next hne => obtain rfl := List.mem_singleton.1 h; exact ⟨⟨hne, hcur⟩, fun c hc => .inl hc⟩
  | cons d s ih =>
    simp only [tokensFrom] at h
    split at h
    · rcases List.mem_append.1 h with h | h
      · simp only [flushToken] at h
        split at h
        · cases h
        next hne => obtain rfl := List.mem_singleton.1 h; exact ⟨⟨hne, hcur⟩, fun c hc => .inl hc⟩
      · have := ih (by simp) h
        exact ⟨this.1, fun c hc => .inr (List.mem_cons_of_mem _ ((this.2 c hc).resolve_left (by simp)))⟩
    next hd =>
      have := ih (cur := cur ++ [d]) (fun c hc => by
        rcases List.mem_append.1 hc with hc | hc
        · exact hcur c hc
        · obtain rfl := List.mem_singleton.1 hc; simpa using hd) h
      refine ⟨this.1, fun c hc => ?_⟩
      rcases this.2 c hc with hc | hc
      · rcases List.mem_append.1 hc with hc | hc
        · exact .inl hc
        · obtain rfl := List.mem_singleton.1 hc; exact .inr List.mem_cons_self
      · exact .inr (List.mem_cons_of_mem _ hc)

/-- A text has no token exactly when it holds nothing but separators. -/
theorem tokenize_eq_nil (s : Text) : tokenize s = [] ↔ AllSeparators s := by
  have key : ∀ cur : Text, tokensFrom cur s = [] ↔ cur = [] ∧ AllSeparators s := by
    induction s with
    | nil => intro cur; simp [tokensFrom, flushToken, AllSeparators]
    | cons c s ih =>
      intro cur
      cases hc : isSeparator c
      · simp [tokensFrom, hc, ih, AllSeparators]
      · simp [tokensFrom, hc, ih, AllSeparators, flushToken]
  simpa [tokenize] using key []

/-! ### Decimal numbers -/

theorem isDigit_iff (c : Char) : isDigit c = true ↔ 48 ≤ c.toNat ∧ c.toNat ≤ 57 := by simp [isDigit]

theorem isNat_iff (t : Text) : isNat t = true ↔ DigitString t := by
  have hc : ∀ c : Char, isDigit c = true ↔ '0' ≤ c ∧ c ≤ '9' := fun c => by rw [isDigit_iff]; rfl
  cases t with
  | nil => simp [isNat, DigitString]
  | cons c t => simp [isNat, DigitString, hc]

theorem isNat_eq_false (t : Text) : isNat t = false ↔ ¬ DigitString t := by
  rw [← isNat_iff]; simp

theorem decimalValue_append (t : Text) (c : Char) :
    decimalValue (t ++ [c]) = decimalValue t * 10 + (c.toNat - 48) := by simp [decimalValue]

/-- The decimal value is the positional value. -/
theorem decimalValue_eq (t : Text) : decimalValue t = digitsNumber t := by
  induction t using List.reverseRecOn with
  | nil => rfl
  | append_singleton t c ih =>
    rw [decimalValue_append, ih, digitsNumber, digitsNumber, List.reverse_append]
    simp only [List.reverse_cons, List.reverse_nil, List.nil_append, List.singleton_append, List.map_cons,
      Nat.ofDigits_cons]
    have : '0'.toNat = 48 := rfl
    simp only [this]
    norm_num
    ring

theorem toNat_digitChar {d : Nat} (h : d < 10) : (digitChar d).toNat = 48 + d := by
  rw [digitChar, Char.toNat_ofNat, if_pos]
  exact .inl (by omega)

theorem isDigit_digitChar {d : Nat} (h : d < 10) : isDigit (digitChar d) = true := by
  rw [isDigit_iff, toNat_digitChar h]; omega

theorem natTextAux_append (fuel n : Nat) (acc : Text) : natTextAux fuel n acc = natTextAux fuel n [] ++ acc := by
  induction fuel generalizing n acc with
  | zero => simp [natTextAux]
  | succ fuel ih =>
    simp only [natTextAux]
    split
    · simp
    · rw [ih, ih (n / 10) [digitChar (n % 10)]]; simp

/-- The digits of `n` are digits, and read back as `n`. -/
theorem natTextAux_spec (fuel n : Nat) (h : n ≤ fuel) :
    (∀ c ∈ natTextAux fuel n [], isDigit c = true) ∧ natTextAux fuel n [] ≠ [] ∧
      decimalValue (natTextAux fuel n []) = n := by
  induction fuel generalizing n with
  | zero =>
    obtain rfl := Nat.le_zero.1 h
    have h0 : (0 : Nat) < 10 := by decide
    exact ⟨by simpa [natTextAux] using isDigit_digitChar h0, by simp [natTextAux],
      by simp [natTextAux, decimalValue, toNat_digitChar h0]⟩
  | succ fuel ih =>
    by_cases hn : n < 10
    · rw [natTextAux, if_pos hn]
      refine ⟨by simpa using isDigit_digitChar hn, by simp, ?_⟩
      simp [decimalValue, toNat_digitChar hn]
    · rw [natTextAux, if_neg hn, natTextAux_append]
      obtain ⟨h1, h2, h3⟩ := ih (n / 10) (by omega)
      have hm : n % 10 < 10 := Nat.mod_lt _ (by decide)
      refine ⟨fun c hc => ?_, by simp, ?_⟩
      · rcases List.mem_append.1 hc with hc | hc
        · exact h1 c hc
        · obtain rfl := List.mem_singleton.1 hc; exact isDigit_digitChar hm
      · rw [decimalValue_append, h3, toNat_digitChar hm]; omega

theorem isDigit_of_mem_natText {n : Nat} {c : Char} (h : c ∈ natText n) : isDigit c = true :=
  (natTextAux_spec n n (Nat.le_refl n)).1 c h

theorem natText_ne_nil (n : Nat) : natText n ≠ [] := (natTextAux_spec n n (Nat.le_refl n)).2.1

@[simp] theorem decimalValue_natText (n : Nat) : decimalValue (natText n) = n :=
  (natTextAux_spec n n (Nat.le_refl n)).2.2

@[simp] theorem isNat_natText (n : Nat) : isNat (natText n) = true := by
  have h : (natText n).isEmpty = false := by simpa using natText_ne_nil n
  simp only [isNat, h, Bool.not_false, Bool.true_and, List.all_eq_true]
  exact fun c hc => isDigit_of_mem_natText hc

/-- A digit is no separator, no parenthesis, no sign and no lowercase letter. -/
theorem isDigit_plain {c : Char} (h : isDigit c = true) :
    isSeparator c = false ∧ upperChar c = c ∧ isAscii c = true ∧ c ≠ '(' ∧ c ≠ ')' ∧ c ≠ '+' ∧ c ≠ '-' := by
  rw [isDigit_iff] at h
  refine ⟨?_, upperChar_eq_self (by omega), by simp [isAscii]; omega, ?_, ?_, ?_, ?_⟩
  · rw [Bool.eq_false_iff, Ne, isSeparator_iff, isWhitespace_iff, char_eq_iff]
    change ¬ (_ ∨ _ = 44)
    omega
  all_goals rw [Ne, char_eq_iff]
  · change ¬ _ = 40; omega
  · change ¬ _ = 41; omega
  · change ¬ _ = 43; omega
  · change ¬ _ = 45; omega

end Sys2Proof
end

