-- ==== Sys2Proof/Laws/Decode.lean ====
section
/-! SUPPORT. Laws/Decode.lean: the opcode map, the operand parsers on the spellings of their values, and what decoding can give. -/

namespace Sys2Proof

/-! ### Opcodes -/

@[simp] theorem recognise_spelling (o : Opcode) : recognise o.spelling = some o := by cases o <;> decide

/-- A recognised token is the spelling of its opcode. -/
theorem recognise_some {t : Text} {o : Opcode} (h : recognise t = some o) : t = o.spelling := by
  have := List.find?_some h
  simpa using Eq.symm (of_decide_eq_true this)

/-- A token is unknown exactly when it is the spelling of no opcode. -/
theorem recognise_none {t : Text} : recognise t = none ↔ ∀ o : Opcode, t ≠ o.spelling := by
  constructor
  · rintro h o rfl; simp at h
  · intro h
    cases hr : recognise t with
    | none => rfl
    | some o => exact absurd (recognise_some hr) (h o)

@[simp] theorem decodeTokens_nil : decodeTokens [] = .ok .empty := rfl

/-- Decoding a recognised opcode. -/
theorem decodeTokens_spelling (o : Opcode) (args : List Text) :
    decodeTokens (o.spelling :: args) = decodeOperands o args := by simp [decodeTokens]

/-- Decoding an unknown opcode; its operands are not examined (spec/30_encoding.md R86). -/
theorem decodeTokens_unknown {op : Text} (h : recognise op = none) (args : List Text) :
    decodeTokens (op :: args) = .ok (.unknown op) := by simp [decodeTokens, h]

/-- The numbers of operands each opcode admits (spec/30_encoding.md R86). -/
def Opcode.counts : Opcode → List Nat
  | .add => [3]
  | .sub => [3]
  | .li => [2]
  | .lw => [2]
  | .sw => [2]
  | .beq => [3]
  | .jal => [1, 2]
  | .j => [1]

/-- A wrong number of operands faults before any operand is parsed. -/
theorem decodeOperands_count {o : Opcode} {args : List Text} (h : args.length ∉ o.counts) :
    decodeOperands o args = .error (.operandCount o.spelling) := by
  unfold decodeOperands
  split <;> first | rfl | simp [Opcode.counts] at h

/-! ### Operand parsers on spellings -/

theorem parseReg_regText (r : Reg) : parseReg (regText r) = .ok r := by simp [parseReg, regText]

theorem signedValue_intText (v : Int) : signedValue (intText v) = some v := by
  cases v with
  | ofNat n =>
    simp only [intText]
    have hp : ∀ c ∈ natText n, c ≠ '+' ∧ c ≠ '-' := fun c hc =>
      (isDigit_plain (isDigit_of_mem_natText hc)).2.2.2.2.2
    unfold signedValue
    split
    next h => exact absurd rfl (hp '+' (h ▸ List.mem_cons_self)).1
    next h => exact absurd rfl (hp '-' (h ▸ List.mem_cons_self)).2
    next => simp
  | negSucc n => simp [intText, signedValue, Int.negSucc_eq]

theorem parseInt_intText {v : Int} (h : inSignedRange v) : parseInt (intText v) = .ok v := by
  simp only [parseInt, signedValue_intText]
  exact if_pos h

theorem intText_ne_nil (v : Int) : intText v ≠ [] := by
  cases v with
  | ofNat n => exact natText_ne_nil n
  | negSucc n => simp [intText]

/-- The characters of a spelled integer are digits or a minus sign. -/
theorem mem_intText {v : Int} {c : Char} (h : c ∈ intText v) : isDigit c = true ∨ c = '-' := by
  cases v with
  | ofNat n => exact .inl (isDigit_of_mem_natText h)
  | negSucc n =>
    rcases List.mem_cons.1 h with rfl | h
    · exact .inr rfl
    · exact .inl (isDigit_of_mem_natText h)

theorem not_mem_intText {v : Int} {c : Char} (hd : isDigit c = false) (hm : c ≠ '-') : c ∉ intText v := fun h =>
  (mem_intText h).elim (by simp [hd]) hm

theorem not_mem_natText {n : Nat} {c : Char} (hd : isDigit c = false) : c ∉ natText n := fun h => by
  simpa [hd] using isDigit_of_mem_natText h

theorem any_isParen {t : Text} (h1 : '(' ∉ t) (h2 : ')' ∉ t) : t.any isParen = false := by
  rw [List.any_eq_false]
  intro c hc
  simp only [isParen, Bool.or_eq_true, beq_iff_eq, not_or]
  exact ⟨fun e => h1 (e ▸ hc), fun e => h2 (e ▸ hc)⟩

/-- A text of the shape `P(Q)` has the parts `P` and `Q`. -/
theorem memShape_eq {p q : Text} (hp1 : '(' ∉ p) (hp2 : ')' ∉ p) (hq1 : '(' ∉ q) (hq2 : ')' ∉ q) :
    memShape (p ++ '(' :: (q ++ [')'])) = some (p, q) := by
  simp [memShape, splitFirst_append hp1, splitFirst_append hq2, any_isParen hp1 hp2, any_isParen hq1 hq2]

/-- A text with the parts `P` and `Q` has the shape `P(Q)`. -/
theorem memShape_some {t p q : Text} (h : memShape t = some (p, q)) :
    ('(' ∉ p ∧ ')' ∉ p) ∧ ('(' ∉ q ∧ ')' ∉ q) ∧ t = p ++ '(' :: (q ++ [')']) := by
  unfold memShape at h
  split at h
  · cases h
  next p' r h1 =>
    split at h
    next q' h2 =>
      split at h
      · cases h
      next hn =>
        simp only [Option.some.injEq, Prod.mk.injEq] at h
        obtain ⟨rfl, rfl⟩ := h
        obtain ⟨ha, hb⟩ := splitFirst_some h1
        obtain ⟨hc, hd⟩ := splitFirst_some h2
        simp only [Bool.or_eq_true, not_or, List.any_eq_true, not_exists, not_and] at hn
        exact ⟨⟨ha, fun hm => hn.1 _ hm rfl⟩, ⟨fun hm => hn.2 _ hm rfl, hc⟩, by rw [hb, hd]⟩
    · cases h

theorem parseMem_memText {off : Int} (h : inSignedRange off) (base : Reg) :
    parseMem (memText off base) = .ok (off, base) := by
  have hs : memShape (memText off base) = some (intText off, regText base) :=
    memShape_eq (not_mem_intText (by decide) (by decide)) (not_mem_intText (by decide) (by decide))
      (not_mem_natText (by decide)) (not_mem_natText (by decide))
  simp [parseMem, hs, parseOffset, intText_ne_nil, parseInt_intText h, parseReg_regText, Except.bind, Except.map]

/-! ### What decoding can raise -/

/-- The fatal conditions of spec/60_exceptions.md R181. -/
def FatalCause.isMalformed : FatalCause → Bool
  | .operandCount _ => true
  | .regSyntax _ => true
  | .regRange _ => true
  | .intSyntax _ => true
  | .intRange _ => true
  | .memSyntax _ => true
  | .labelNotFound _ => false
  | .negativeAddress _ => false
  | .addressAboveBound _ => false

theorem Except.map_error {α β : Type} {r : Except FatalCause α} {f : α → β} {c : FatalCause}
    (h : r.map f = .error c) : r = .error c := by
  cases r with
  | error => simpa [Except.map] using h
  | ok => simp [Except.map] at h

theorem Except.map_ok {α β : Type} {r : Except FatalCause α} {f : α → β} {b : β} (h : r.map f = .ok b) :
    ∃ a, r = .ok a ∧ f a = b := by
  cases r with
  | error => simp [Except.map] at h
  | ok a => exact ⟨a, rfl, by simpa [Except.map] using h⟩

theorem Except.bind_error {α β : Type} {r : Except FatalCause α} {f : α → Except FatalCause β} {c : FatalCause}
    (h : r.bind f = .error c) : r = .error c ∨ ∃ a, r = .ok a ∧ f a = .error c := by
  cases r with
  | error => exact .inl (by simpa [Except.bind] using h)
  | ok a => exact .inr ⟨a, rfl, h⟩

theorem Except.bind_ok {α β : Type} {r : Except FatalCause α} {f : α → Except FatalCause β} {b : β}
    (h : r.bind f = .ok b) : ∃ a, r = .ok a ∧ f a = .ok b := by
  cases r with
  | error => simp [Except.bind] at h
  | ok a => exact ⟨a, rfl, h⟩

theorem parseReg_error {t : Text} {c : FatalCause} (h : parseReg t = .error c) : c.isMalformed = true := by
  unfold parseReg at h
  split at h
  · split at h <;> cases h; rfl
  · cases h; rfl

theorem parseInt_error {t : Text} {c : FatalCause} (h : parseInt t = .error c) : c.isMalformed = true := by
  unfold parseInt at h
  split at h
  · cases h; rfl
  · split at h <;> cases h; rfl

theorem parseMem_error {t : Text} {c : FatalCause} (h : parseMem t = .error c) : c.isMalformed = true := by
  unfold parseMem at h
  split at h
  · cases h; rfl
  · rcases Except.bind_error h with h | ⟨_, -, h⟩
    · unfold parseOffset at h
      split at h
      · cases h
      · exact parseInt_error h
    · exact parseReg_error (Except.map_error h)

theorem parseInt_range {t : Text} {v : Int} (h : parseInt t = .ok v) : inSignedRange v := by
  unfold parseInt at h
  split at h
  · cases h
  · split at h
    next hr => cases h; exact hr
    next => cases h

theorem parseMem_range {t : Text} {off : Int} {b : Reg} (h : parseMem t = .ok (off, b)) : inSignedRange off := by
  unfold parseMem at h
  split at h
  · cases h
  · obtain ⟨o, ho, h⟩ := Except.bind_ok h
    obtain ⟨r, -, h⟩ := Except.map_ok h
    cases h
    unfold parseOffset at ho
    split at ho
    · cases ho; decide
    · exact parseInt_range ho

/-- Decoding raises malformed-operand conditions only (spec/60_exceptions.md R181). -/
theorem decode_error {txt : Text} {c : FatalCause} (h : decode txt = .error c) : c.isMalformed = true := by
  unfold decode decodeTokens at h
  split at h
  · cases h
  · split at h
    · cases h
    · unfold decodeOperands parseRRR parseRM at h
      split at h
      all_goals
        first
        | (cases h; rfl)
        | cases h
        | skip
      all_goals
        repeat first
          | exact parseReg_error h
          | exact parseMem_error h
          | exact parseInt_error h
          | replace h := Except.map_error h
          | (rcases Except.bind_error h with h | ⟨_, -, h⟩)

/-- Every condition that `r` raises satisfies `P`. -/
def RaisesOnly {α : Type} (r : Parse α) (P : FatalCause → Prop) : Prop := ∀ c, r = .error c → P c

theorem RaisesOnly.map {α β : Type} {r : Parse α} {P : FatalCause → Prop} (h : RaisesOnly r P) (f : α → β) :
    RaisesOnly (r.map f) P := fun c hc => h c (Except.map_error hc)

theorem RaisesOnly.bind {α β : Type} {r : Parse α} {f : α → Parse β} {P : FatalCause → Prop} (h : RaisesOnly r P)
    (hf : ∀ a, RaisesOnly (f a) P) : RaisesOnly (r.bind f) P := fun c hc =>
  (Except.bind_error hc).elim (h c) fun ⟨a, _, ha⟩ => hf a c ha

/-- The opcodes whose operands hold a register (spec/60_exceptions.md R180, "raised by" of REG_SYNTAX). -/
def readsRegister (op : Text) (args : List Text) : Prop :=
  op ∈ ["ADD".toList, "SUB".toList, "LI".toList, "LW".toList, "SW".toList, "BEQ".toList] ∨
    (op = "JAL".toList ∧ args.length = 2)

/-- The "raised by" column of spec/60_exceptions.md R180 for the malformed-operand conditions: `c` belongs to the opcode token
`op` with the operand tokens `args`. -/
def FatalCause.RaisedBy (c : FatalCause) (op : Text) (args : List Text) : Prop :=
  match c with
  | .operandCount t => t = op ∧ op ∈ ["ADD".toList, "SUB".toList, "LI".toList, "LW".toList, "SW".toList, "BEQ".toList,
      "JAL".toList, "J".toList]
  | .regSyntax _ => readsRegister op args
  | .regRange _ => readsRegister op args
  | .intSyntax _ => op ∈ ["LI".toList, "LW".toList, "SW".toList]
  | .intRange _ => op ∈ ["LI".toList, "LW".toList, "SW".toList]
  | .memSyntax _ => op ∈ ["LW".toList, "SW".toList]
  | .labelNotFound _ => False
  | .negativeAddress _ => False
  | .addressAboveBound _ => False

theorem parseReg_raises {t op : Text} {args : List Text} (h : readsRegister op args) :
    RaisesOnly (parseReg t) (fun c => c.RaisedBy op args) := by
  intro c hc
  unfold parseReg at hc
  split at hc
  · split at hc <;> cases hc
    exact h
  · cases hc; exact h

theorem parseInt_raises {t op : Text} {args : List Text} (h : op ∈ ["LI".toList, "LW".toList, "SW".toList]) :
    RaisesOnly (parseInt t) (fun c => c.RaisedBy op args) := by
  intro c hc
  unfold parseInt at hc
  split at hc
  · cases hc; exact h
  · split at hc <;> cases hc
    exact h

theorem parseMem_raises {t op : Text} {args : List Text} (h : op ∈ ["LW".toList, "SW".toList]) :
    RaisesOnly (parseMem t) (fun c => c.RaisedBy op args) := by
  have hi : op ∈ ["LI".toList, "LW".toList, "SW".toList] := List.mem_cons_of_mem _ h
  have hr : readsRegister op args := .inl (by simp only [List.mem_cons] at h ⊢; tauto)
  unfold parseMem
  split
  · intro c hc; cases hc; exact h
  · refine RaisesOnly.bind ?_ fun _ => (parseReg_raises hr).map _
    unfold parseOffset
    split
    · intro c hc; cases hc
    · exact parseInt_raises hi

theorem decodeOperands_raises (o : Opcode) (args : List Text) :
    RaisesOnly (decodeOperands o args) (fun c => c.RaisedBy o.spelling args) := by
  unfold decodeOperands
  split
  · exact ((parseReg_raises (.inl (by decide))).bind fun _ => (parseReg_raises (.inl (by decide))).bind fun _ =>
      (parseReg_raises (.inl (by decide))).map _).map _
  · exact ((parseReg_raises (.inl (by decide))).bind fun _ => (parseReg_raises (.inl (by decide))).bind fun _ =>
      (parseReg_raises (.inl (by decide))).map _).map _
  · exact (parseReg_raises (.inl (by decide))).bind fun _ => (parseInt_raises (by decide)).map _
  · exact ((parseReg_raises (.inl (by decide))).bind fun _ => (parseMem_raises (by decide)).map _).map _
  · exact ((parseReg_raises (.inl (by decide))).bind fun _ => (parseMem_raises (by decide)).map _).map _
  · exact (parseReg_raises (.inl (by decide))).bind fun _ => (parseReg_raises (.inl (by decide))).map _
  · intro c h; cases h
  · exact (parseReg_raises (.inr ⟨rfl, rfl⟩)).map _
  · intro c h; cases h
  · intro c h; cases h; cases o <;> simp [FatalCause.RaisedBy, Opcode.spelling]

/-- Decoding raises a condition only for an opcode of that condition's rows (spec/60_exceptions.md R180). -/
theorem decode_raises {txt : Text} {c : FatalCause} (h : decode txt = .error c) :
    ∃ op args, tokensOf txt = op :: args ∧ c.RaisedBy op args := by
  unfold decode at h
  cases ht : tokensOf txt with
  | nil => rw [ht] at h; cases h
  | cons op args =>
    refine ⟨op, args, rfl, ?_⟩
    rw [ht] at h
    simp only [decodeTokens] at h
    split at h
    · cases h
    next o ho =>
      cases recognise_some ho
      exact decodeOperands_raises o args c h

/-- `i` is an instruction of the opcode `o`, its integers in range and its label one of the operands. -/
def Instr.IsOf (i : Instr) (o : Opcode) (args : List Text) : Prop :=
  match i with
  | .add _ _ _ => o = .add
  | .sub _ _ _ => o = .sub
  | .li _ imm => o = .li ∧ inSignedRange imm
  | .lw _ off _ => o = .lw ∧ inSignedRange off
  | .sw _ off _ => o = .sw ∧ inSignedRange off
  | .beq _ _ lab => o = .beq ∧ lab ∈ args
  | .jal lab => o = .jal ∧ lab ∈ args
  | .jalRd _ lab => o = .jal ∧ lab ∈ args
  | .jRel _ => o = .j
  | .jLab lab => o = .j ∧ lab ∈ args ∧ isNat lab = false
  | .unknown _ => False
  | .empty => False

/-- What the operands of a recognised opcode can decode to. -/
theorem decodeOperands_ok {o : Opcode} {args : List Text} {i : Instr} (h : decodeOperands o args = .ok i) :
    i.IsOf o args := by
  unfold decodeOperands parseRRR parseRM at h
  split at h
  · obtain ⟨_, -, rfl⟩ := Except.map_ok h; rfl
  · obtain ⟨_, -, rfl⟩ := Except.map_ok h; rfl
  · obtain ⟨_, -, h⟩ := Except.bind_ok h
    obtain ⟨_, hi, rfl⟩ := Except.map_ok h
    exact ⟨rfl, parseInt_range hi⟩
  · obtain ⟨_, hb, rfl⟩ := Except.map_ok h
    obtain ⟨_, -, hb⟩ := Except.bind_ok hb
    obtain ⟨_, hm, rfl⟩ := Except.map_ok hb
    exact ⟨rfl, parseMem_range hm⟩
  · obtain ⟨_, hb, rfl⟩ := Except.map_ok h
    obtain ⟨_, -, hb⟩ := Except.bind_ok hb
    obtain ⟨_, hm, rfl⟩ := Except.map_ok hb
    exact ⟨rfl, parseMem_range hm⟩
  · obtain ⟨_, -, h⟩ := Except.bind_ok h
    obtain ⟨_, -, rfl⟩ := Except.map_ok h
    exact ⟨rfl, by simp⟩
  · obtain rfl := Except.ok.inj h
    exact ⟨rfl, by simp⟩
  · obtain ⟨_, -, rfl⟩ := Except.map_ok h
    exact ⟨rfl, by simp⟩
  next t =>
    cases hn : isNat t <;> rw [hn] at h <;> obtain rfl := Except.ok.inj h
    · exact ⟨rfl, by simp, hn⟩
    · rfl
  · cases h

/-- What decoding can give: the empty instruction of no token, an unknown opcode, or a recognised one with its operands. -/
theorem decode_ok {txt : Text} {i : Instr} (h : decode txt = .ok i) :
    (i = .empty ∧ tokensOf txt = []) ∨
    (∃ op args, tokensOf txt = op :: args ∧ recognise op = none ∧ i = .unknown op) ∨
    ∃ o args, tokensOf txt = o.spelling :: args ∧ decodeOperands o args = .ok i := by
  unfold decode at h
  cases ht : tokensOf txt with
  | nil => rw [ht] at h; exact .inl ⟨by simpa using h.symm, rfl⟩
  | cons op args =>
    rw [ht] at h
    cases hr : recognise op with
    | none =>
      rw [decodeTokens_unknown hr] at h
      exact .inr (.inl ⟨op, args, rfl, hr, (Except.ok.inj h).symm⟩)
    | some o =>
      obtain rfl := recognise_some hr
      rw [decodeTokens_spelling] at h
      exact .inr (.inr ⟨o, args, rfl, h⟩)

/-- An unknown instruction comes from an opcode token that is none of the eight. -/
theorem decode_unknown {txt op : Text} (h : decode txt = .ok (.unknown op)) : recognise op = none := by
  rcases decode_ok h with ⟨he, -⟩ | ⟨o, _, -, hr, he⟩ | ⟨_, _, -, h⟩
  · cases he
  · cases he; exact hr
  · exact (decodeOperands_ok h).elim

end Sys2Proof
end

