-- ==== Sys2Proof/Laws/State.lean ====
section
/-! SUPPORT. Laws/State.lean: one lemma per field per update of the state, so that no proof unfolds a record update. -/

namespace Sys2Proof.Machine

variable (s : State)

/-! ### setReg -/

@[simp] theorem State.setReg_x (r : Reg) (v : Word) : (s.setReg r v).x = s.x.set r.val v r.isLt := rfl
@[simp] theorem State.setReg_pc (r : Reg) (v : Word) : (s.setReg r v).pc = s.pc := rfl
@[simp] theorem State.setReg_mem (r : Reg) (v : Word) : (s.setReg r v).mem = s.mem := rfl
@[simp] theorem State.setReg_fault (r : Reg) (v : Word) : (s.setReg r v).fault = s.fault := rfl
@[simp] theorem State.setReg_ctrInstr (r : Reg) (v : Word) : (s.setReg r v).ctrInstr = s.ctrInstr := rfl
@[simp] theorem State.setReg_ctrCycle (r : Reg) (v : Word) : (s.setReg r v).ctrCycle = s.ctrCycle := rfl
@[simp] theorem State.setReg_ctrMem (r : Reg) (v : Word) : (s.setReg r v).ctrMem = s.ctrMem := rfl
@[simp] theorem State.setReg_prog (r : Reg) (v : Word) : (s.setReg r v).prog = s.prog := rfl
@[simp] theorem State.setReg_lblExact (r : Reg) (v : Word) : (s.setReg r v).lblExact = s.lblExact := rfl
@[simp] theorem State.setReg_lblUpper (r : Reg) (v : Word) : (s.setReg r v).lblUpper = s.lblUpper := rfl
@[simp] theorem State.setReg_diag (r : Reg) (v : Word) : (s.setReg r v).diag = s.diag := rfl
@[simp] theorem State.setReg_params (r : Reg) (v : Word) : (s.setReg r v).params = s.params := rfl

/-! ### setMem -/

@[simp] theorem State.setMem_x (a : Nat) (v : Word) : (s.setMem a v).x = s.x := rfl
@[simp] theorem State.setMem_pc (a : Nat) (v : Word) : (s.setMem a v).pc = s.pc := rfl
@[simp] theorem State.setMem_mem (a : Nat) (v : Word) : (s.setMem a v).mem = Memory.write s.mem a v := rfl
@[simp] theorem State.setMem_fault (a : Nat) (v : Word) : (s.setMem a v).fault = s.fault := rfl
@[simp] theorem State.setMem_ctrInstr (a : Nat) (v : Word) : (s.setMem a v).ctrInstr = s.ctrInstr := rfl
@[simp] theorem State.setMem_ctrCycle (a : Nat) (v : Word) : (s.setMem a v).ctrCycle = s.ctrCycle := rfl
@[simp] theorem State.setMem_ctrMem (a : Nat) (v : Word) : (s.setMem a v).ctrMem = s.ctrMem := rfl
@[simp] theorem State.setMem_prog (a : Nat) (v : Word) : (s.setMem a v).prog = s.prog := rfl
@[simp] theorem State.setMem_lblExact (a : Nat) (v : Word) : (s.setMem a v).lblExact = s.lblExact := rfl
@[simp] theorem State.setMem_lblUpper (a : Nat) (v : Word) : (s.setMem a v).lblUpper = s.lblUpper := rfl
@[simp] theorem State.setMem_diag (a : Nat) (v : Word) : (s.setMem a v).diag = s.diag := rfl
@[simp] theorem State.setMem_params (a : Nat) (v : Word) : (s.setMem a v).params = s.params := rfl

/-! ### count -/

@[simp] theorem State.count_x (n : Nat) : (s.count n).x = s.x := rfl
@[simp] theorem State.count_pc (n : Nat) : (s.count n).pc = s.pc := rfl
@[simp] theorem State.count_mem (n : Nat) : (s.count n).mem = s.mem := rfl
@[simp] theorem State.count_fault (n : Nat) : (s.count n).fault = s.fault := rfl
@[simp] theorem State.count_ctrInstr (n : Nat) : (s.count n).ctrInstr = s.ctrInstr + 1 := rfl
@[simp] theorem State.count_ctrCycle (n : Nat) : (s.count n).ctrCycle = s.ctrCycle + 1 := rfl
@[simp] theorem State.count_ctrMem (n : Nat) : (s.count n).ctrMem = s.ctrMem + n := rfl
@[simp] theorem State.count_prog (n : Nat) : (s.count n).prog = s.prog := rfl
@[simp] theorem State.count_lblExact (n : Nat) : (s.count n).lblExact = s.lblExact := rfl
@[simp] theorem State.count_lblUpper (n : Nat) : (s.count n).lblUpper = s.lblUpper := rfl
@[simp] theorem State.count_diag (n : Nat) : (s.count n).diag = s.diag := rfl
@[simp] theorem State.count_params (n : Nat) : (s.count n).params = s.params := rfl

/-! ### setPc -/

@[simp] theorem State.setPc_x (n : Nat) : (s.setPc n).x = s.x := rfl
@[simp] theorem State.setPc_pc (n : Nat) : (s.setPc n).pc = n := rfl
@[simp] theorem State.setPc_mem (n : Nat) : (s.setPc n).mem = s.mem := rfl
@[simp] theorem State.setPc_fault (n : Nat) : (s.setPc n).fault = s.fault := rfl
@[simp] theorem State.setPc_ctrInstr (n : Nat) : (s.setPc n).ctrInstr = s.ctrInstr := rfl
@[simp] theorem State.setPc_ctrCycle (n : Nat) : (s.setPc n).ctrCycle = s.ctrCycle := rfl
@[simp] theorem State.setPc_ctrMem (n : Nat) : (s.setPc n).ctrMem = s.ctrMem := rfl
@[simp] theorem State.setPc_prog (n : Nat) : (s.setPc n).prog = s.prog := rfl
@[simp] theorem State.setPc_lblExact (n : Nat) : (s.setPc n).lblExact = s.lblExact := rfl
@[simp] theorem State.setPc_lblUpper (n : Nat) : (s.setPc n).lblUpper = s.lblUpper := rfl
@[simp] theorem State.setPc_diag (n : Nat) : (s.setPc n).diag = s.diag := rfl
@[simp] theorem State.setPc_params (n : Nat) : (s.setPc n).params = s.params := rfl

/-! ### endReport -/

@[simp] theorem State.endReport_x : s.endReport.x = s.x := rfl
@[simp] theorem State.endReport_pc : s.endReport.pc = s.pc := rfl
@[simp] theorem State.endReport_mem : s.endReport.mem = s.mem := rfl
@[simp] theorem State.endReport_fault : s.endReport.fault = s.fault := rfl
@[simp] theorem State.endReport_ctrInstr : s.endReport.ctrInstr = s.ctrInstr := rfl
@[simp] theorem State.endReport_ctrCycle : s.endReport.ctrCycle = s.ctrCycle := rfl
@[simp] theorem State.endReport_ctrMem : s.endReport.ctrMem = s.ctrMem := rfl
@[simp] theorem State.endReport_prog : s.endReport.prog = s.prog := rfl
@[simp] theorem State.endReport_lblExact : s.endReport.lblExact = s.lblExact := rfl
@[simp] theorem State.endReport_lblUpper : s.endReport.lblUpper = s.lblUpper := rfl
@[simp] theorem State.endReport_diag : s.endReport.diag = none := rfl
@[simp] theorem State.endReport_params : s.endReport.params = s.params := rfl

/-! ### enterFault -/

@[simp] theorem State.enterFault_x (c : FatalCause) : (s.enterFault c).x = s.x := rfl
@[simp] theorem State.enterFault_pc (c : FatalCause) : (s.enterFault c).pc = s.pc := rfl
@[simp] theorem State.enterFault_mem (c : FatalCause) : (s.enterFault c).mem = s.mem := rfl
@[simp] theorem State.enterFault_fault (c : FatalCause) : (s.enterFault c).fault = { valid := true, code := c.code, sub := c.sub, info := c.info, fpc := s.pc } := rfl
@[simp] theorem State.enterFault_ctrInstr (c : FatalCause) : (s.enterFault c).ctrInstr = s.ctrInstr := rfl
@[simp] theorem State.enterFault_ctrCycle (c : FatalCause) : (s.enterFault c).ctrCycle = s.ctrCycle := rfl
@[simp] theorem State.enterFault_ctrMem (c : FatalCause) : (s.enterFault c).ctrMem = s.ctrMem := rfl
@[simp] theorem State.enterFault_prog (c : FatalCause) : (s.enterFault c).prog = s.prog := rfl
@[simp] theorem State.enterFault_lblExact (c : FatalCause) : (s.enterFault c).lblExact = s.lblExact := rfl
@[simp] theorem State.enterFault_lblUpper (c : FatalCause) : (s.enterFault c).lblUpper = s.lblUpper := rfl
@[simp] theorem State.enterFault_diag (c : FatalCause) : (s.enterFault c).diag = s.diag := rfl
@[simp] theorem State.enterFault_params (c : FatalCause) : (s.enterFault c).params = s.params := rfl

/-! ### forceZero -/

@[simp] theorem State.forceZero_x : s.forceZero.x = s.x.set 0 0 := rfl
@[simp] theorem State.forceZero_pc : s.forceZero.pc = s.pc := rfl
@[simp] theorem State.forceZero_mem : s.forceZero.mem = s.mem := rfl
@[simp] theorem State.forceZero_fault : s.forceZero.fault = s.fault := rfl
@[simp] theorem State.forceZero_ctrInstr : s.forceZero.ctrInstr = s.ctrInstr := rfl
@[simp] theorem State.forceZero_ctrCycle : s.forceZero.ctrCycle = s.ctrCycle := rfl
@[simp] theorem State.forceZero_ctrMem : s.forceZero.ctrMem = s.ctrMem := rfl
@[simp] theorem State.forceZero_prog : s.forceZero.prog = s.prog := rfl
@[simp] theorem State.forceZero_lblExact : s.forceZero.lblExact = s.lblExact := rfl
@[simp] theorem State.forceZero_lblUpper : s.forceZero.lblUpper = s.lblUpper := rfl
@[simp] theorem State.forceZero_diag : s.forceZero.diag = s.diag := rfl
@[simp] theorem State.forceZero_params : s.forceZero.params = s.params := rfl

/-! ### resetMachine -/

@[simp] theorem State.resetMachine_x : s.resetMachine.x = Vector.replicate 32 0 := rfl
@[simp] theorem State.resetMachine_pc : s.resetMachine.pc = 0 := rfl
@[simp] theorem State.resetMachine_mem : s.resetMachine.mem = [] := rfl
@[simp] theorem State.resetMachine_fault : s.resetMachine.fault = FaultLatch.clear := rfl
@[simp] theorem State.resetMachine_ctrInstr : s.resetMachine.ctrInstr = 0 := rfl
@[simp] theorem State.resetMachine_ctrCycle : s.resetMachine.ctrCycle = 0 := rfl
@[simp] theorem State.resetMachine_ctrMem : s.resetMachine.ctrMem = 0 := rfl
@[simp] theorem State.resetMachine_prog : s.resetMachine.prog = s.prog := rfl
@[simp] theorem State.resetMachine_lblExact : s.resetMachine.lblExact = s.lblExact := rfl
@[simp] theorem State.resetMachine_lblUpper : s.resetMachine.lblUpper = s.lblUpper := rfl
@[simp] theorem State.resetMachine_diag : s.resetMachine.diag = none := rfl
@[simp] theorem State.resetMachine_params : s.resetMachine.params = s.params := rfl

/-! ### placeText -/

@[simp] theorem State.placeText_x (t : Text) : (s.placeText t).x = s.x := rfl
@[simp] theorem State.placeText_pc (t : Text) : (s.placeText t).pc = s.pc := rfl
@[simp] theorem State.placeText_mem (t : Text) : (s.placeText t).mem = s.mem := rfl
@[simp] theorem State.placeText_fault (t : Text) : (s.placeText t).fault = { s.fault with valid := false } := rfl
@[simp] theorem State.placeText_ctrInstr (t : Text) : (s.placeText t).ctrInstr = s.ctrInstr := rfl
@[simp] theorem State.placeText_ctrCycle (t : Text) : (s.placeText t).ctrCycle = s.ctrCycle := rfl
@[simp] theorem State.placeText_ctrMem (t : Text) : (s.placeText t).ctrMem = s.ctrMem := rfl
@[simp] theorem State.placeText_prog (t : Text) : (s.placeText t).prog = s.prog.take s.pc ++ List.replicate (s.pc - s.len) [] ++ t :: s.prog.drop (s.pc + 1) := rfl
@[simp] theorem State.placeText_lblExact (t : Text) : (s.placeText t).lblExact = s.lblExact := rfl
@[simp] theorem State.placeText_lblUpper (t : Text) : (s.placeText t).lblUpper = s.lblUpper := rfl
@[simp] theorem State.placeText_diag (t : Text) : (s.placeText t).diag = s.diag := rfl
@[simp] theorem State.placeText_params (t : Text) : (s.placeText t).params = s.params := rfl

/-! ### commitReg -/

@[simp] theorem State.commitReg_pc (o : Option (Reg × Word)) : (s.commitReg o).pc = s.pc := by cases o <;> rfl
@[simp] theorem State.commitReg_mem (o : Option (Reg × Word)) : (s.commitReg o).mem = s.mem := by cases o <;> rfl
@[simp] theorem State.commitReg_fault (o : Option (Reg × Word)) : (s.commitReg o).fault = s.fault := by cases o <;> rfl
@[simp] theorem State.commitReg_ctrInstr (o : Option (Reg × Word)) : (s.commitReg o).ctrInstr = s.ctrInstr := by cases o <;> rfl
@[simp] theorem State.commitReg_ctrCycle (o : Option (Reg × Word)) : (s.commitReg o).ctrCycle = s.ctrCycle := by cases o <;> rfl
@[simp] theorem State.commitReg_ctrMem (o : Option (Reg × Word)) : (s.commitReg o).ctrMem = s.ctrMem := by cases o <;> rfl
@[simp] theorem State.commitReg_prog (o : Option (Reg × Word)) : (s.commitReg o).prog = s.prog := by cases o <;> rfl
@[simp] theorem State.commitReg_lblExact (o : Option (Reg × Word)) : (s.commitReg o).lblExact = s.lblExact := by cases o <;> rfl
@[simp] theorem State.commitReg_lblUpper (o : Option (Reg × Word)) : (s.commitReg o).lblUpper = s.lblUpper := by cases o <;> rfl
@[simp] theorem State.commitReg_diag (o : Option (Reg × Word)) : (s.commitReg o).diag = s.diag := by cases o <;> rfl
@[simp] theorem State.commitReg_params (o : Option (Reg × Word)) : (s.commitReg o).params = s.params := by cases o <;> rfl

/-! ### commitMem -/

@[simp] theorem State.commitMem_x (o : Option (Nat × Word)) : (s.commitMem o).x = s.x := by cases o <;> rfl
@[simp] theorem State.commitMem_pc (o : Option (Nat × Word)) : (s.commitMem o).pc = s.pc := by cases o <;> rfl
@[simp] theorem State.commitMem_fault (o : Option (Nat × Word)) : (s.commitMem o).fault = s.fault := by cases o <;> rfl
@[simp] theorem State.commitMem_ctrInstr (o : Option (Nat × Word)) : (s.commitMem o).ctrInstr = s.ctrInstr := by cases o <;> rfl
@[simp] theorem State.commitMem_ctrCycle (o : Option (Nat × Word)) : (s.commitMem o).ctrCycle = s.ctrCycle := by cases o <;> rfl
@[simp] theorem State.commitMem_ctrMem (o : Option (Nat × Word)) : (s.commitMem o).ctrMem = s.ctrMem := by cases o <;> rfl
@[simp] theorem State.commitMem_prog (o : Option (Nat × Word)) : (s.commitMem o).prog = s.prog := by cases o <;> rfl
@[simp] theorem State.commitMem_lblExact (o : Option (Nat × Word)) : (s.commitMem o).lblExact = s.lblExact := by cases o <;> rfl
@[simp] theorem State.commitMem_lblUpper (o : Option (Nat × Word)) : (s.commitMem o).lblUpper = s.lblUpper := by cases o <;> rfl
@[simp] theorem State.commitMem_diag (o : Option (Nat × Word)) : (s.commitMem o).diag = s.diag := by cases o <;> rfl
@[simp] theorem State.commitMem_params (o : Option (Nat × Word)) : (s.commitMem o).params = s.params := by cases o <;> rfl

/-! ### emit -/

@[simp] theorem State.emit_x (o : Option Report) : (s.emit o).x = s.x := by cases o <;> rfl
@[simp] theorem State.emit_pc (o : Option Report) : (s.emit o).pc = s.pc := by cases o <;> rfl
@[simp] theorem State.emit_mem (o : Option Report) : (s.emit o).mem = s.mem := by cases o <;> rfl
@[simp] theorem State.emit_fault (o : Option Report) : (s.emit o).fault = s.fault := by cases o <;> rfl
@[simp] theorem State.emit_ctrInstr (o : Option Report) : (s.emit o).ctrInstr = s.ctrInstr := by cases o <;> rfl
@[simp] theorem State.emit_ctrCycle (o : Option Report) : (s.emit o).ctrCycle = s.ctrCycle := by cases o <;> rfl
@[simp] theorem State.emit_ctrMem (o : Option Report) : (s.emit o).ctrMem = s.ctrMem := by cases o <;> rfl
@[simp] theorem State.emit_prog (o : Option Report) : (s.emit o).prog = s.prog := by cases o <;> rfl
@[simp] theorem State.emit_lblExact (o : Option Report) : (s.emit o).lblExact = s.lblExact := by cases o <;> rfl
@[simp] theorem State.emit_lblUpper (o : Option Report) : (s.emit o).lblUpper = s.lblUpper := by cases o <;> rfl
@[simp] theorem State.emit_params (o : Option Report) : (s.emit o).params = s.params := by cases o <;> rfl

@[simp] theorem State.emit_diag (o : Option Report) : (s.emit o).diag = o.orElse fun _ => s.diag := by cases o <;> rfl

/-! ### commit -/

@[simp] theorem State.commit_pc (e : Effect) : (s.commit e).pc = e.npc := by simp [State.commit]
@[simp] theorem State.commit_mem (e : Effect) : (s.commit e).mem = (s.commitMem e.mw).mem := by
  rcases e with ⟨_, _ | ⟨a, v⟩, _, _, _⟩ <;> simp [State.commit, State.commitMem]
@[simp] theorem State.commit_fault (e : Effect) : (s.commit e).fault = s.fault := by simp [State.commit]
@[simp] theorem State.commit_ctrInstr (e : Effect) : (s.commit e).ctrInstr = s.ctrInstr + 1 := by simp [State.commit]
@[simp] theorem State.commit_ctrCycle (e : Effect) : (s.commit e).ctrCycle = s.ctrCycle + 1 := by simp [State.commit]
@[simp] theorem State.commit_ctrMem (e : Effect) : (s.commit e).ctrMem = s.ctrMem + e.memAccess := by simp [State.commit]
@[simp] theorem State.commit_prog (e : Effect) : (s.commit e).prog = s.prog := by simp [State.commit]
@[simp] theorem State.commit_lblExact (e : Effect) : (s.commit e).lblExact = s.lblExact := by simp [State.commit]
@[simp] theorem State.commit_lblUpper (e : Effect) : (s.commit e).lblUpper = s.lblUpper := by simp [State.commit]
@[simp] theorem State.commit_diag (e : Effect) : (s.commit e).diag = e.diag.orElse fun _ => s.diag := by simp [State.commit]
@[simp] theorem State.commit_params (e : Effect) : (s.commit e).params = s.params := by simp [State.commit]

end Sys2Proof.Machine
end

