-- ==== Sys2Proof/Laws/Memory.lean ====
section
/-! SUPPORT. Laws/Memory.lean: reading after writing, and the canonical form of the memory. -/

namespace Sys2Proof.Machine

@[simp] theorem Memory.read_nil (a : Nat) : Memory.read [] a = Memory.unwritten := rfl

/-- An address below every listed one reads as an unlisted address. -/
theorem Memory.read_below {m : Memory} {a : Nat} (h : ∀ c ∈ m, a < c.1) : Memory.read m a = Memory.unwritten := by
  induction m with
  | nil => rfl
  | cons c m ih =>
    have hc := h c List.mem_cons_self
    simp [Memory.read, Nat.ne_of_gt hc, ih fun d hd => h d (List.mem_cons_of_mem _ hd)]

theorem Memory.read_cons_same {m : Memory} {a : Nat} (v : Word) (h : ∀ c ∈ m, a < c.1) :
    Memory.read (Memory.cons a v m) a = v := by
  unfold Memory.cons
  split
  next hv => rw [Memory.read_below h, hv]
  next => simp [Memory.read]

theorem Memory.read_cons_other {m : Memory} {a b : Nat} (v : Word) (h : b ≠ a) :
    Memory.read (Memory.cons a v m) b = Memory.read m b := by
  unfold Memory.cons
  split <;> simp [Memory.read, h.symm]

/-- A write leaves every other address alone (20_memory.md R55). -/
theorem Memory.read_write_other {a b : Nat} (m : Memory) (v : Word) (h : b ≠ a) :
    Memory.read (Memory.write m a v) b = Memory.read m b := by
  induction m with
  | nil => exact Memory.read_cons_other v h
  | cons c m ih =>
    obtain ⟨d, w⟩ := c
    simp only [Memory.write]
    split
    · exact Memory.read_cons_other v h
    · split
      next e => subst e; rw [Memory.read_cons_other v h]; simp [Memory.read, Ne.symm h]
      next => simp [Memory.read, ih]

theorem Memory.wf_tail {c : Nat × Word} {m : Memory} (h : Memory.wf (c :: m)) : Memory.wf m :=
  ⟨h.1.of_cons, fun d hd => h.2 d (List.mem_cons_of_mem _ hd)⟩

theorem Memory.wf_head {c : Nat × Word} {m : Memory} (h : Memory.wf (c :: m)) : ∀ d ∈ m, c.1 < d.1 :=
  fun _ hd => List.rel_of_pairwise_cons h.1 hd

/-- A read after a write to the same address gives the value written (20_memory.md R54, R55). -/
theorem Memory.read_write_same {m : Memory} (a : Nat) (v : Word) (h : Memory.wf m) :
    Memory.read (Memory.write m a v) a = v := by
  induction m with
  | nil => exact Memory.read_cons_same v (by simp)
  | cons c m ih =>
    obtain ⟨d, w⟩ := c
    simp only [Memory.write]
    split
    next hlt =>
      refine Memory.read_cons_same v fun e he => ?_
      rcases List.mem_cons.1 he with rfl | he
      · exact hlt
      · exact Nat.lt_trans hlt (Memory.wf_head h e he)
    next =>
      split
      next e => subst e; exact Memory.read_cons_same v (Memory.wf_head h)
      next hne => simp [Memory.read, Ne.symm hne, ih (Memory.wf_tail h)]

/-- Every cell after a write is the one written or an old one. -/
theorem Memory.mem_write {m : Memory} {a : Nat} {v : Word} {c : Nat × Word} (h : c ∈ Memory.write m a v) :
    c = (a, v) ∨ c ∈ m := by
  induction m with
  | nil =>
    simp only [Memory.write, Memory.cons] at h
    split at h <;> simp_all
  | cons d m ih =>
    simp only [Memory.write] at h
    split at h
    · simp only [Memory.cons] at h
      split at h
      · exact .inr h
      · exact (List.mem_cons.1 h).imp_right id
    · split at h
      · simp only [Memory.cons] at h
        split at h
        · exact .inr (List.mem_cons_of_mem _ h)
        · exact (List.mem_cons.1 h).imp_right (List.mem_cons_of_mem _)
      · rcases List.mem_cons.1 h with rfl | h
        · exact .inr List.mem_cons_self
        · exact (ih h).imp_right (List.mem_cons_of_mem _)

theorem Memory.wf_nil : Memory.wf [] := ⟨.nil, by simp⟩

theorem Memory.wf_cons {m : Memory} {a : Nat} (v : Word) (h : Memory.wf m) (hb : ∀ c ∈ m, a < c.1) :
    Memory.wf (Memory.cons a v m) := by
  unfold Memory.cons
  split
  · exact h
  next hv =>
    refine ⟨List.pairwise_cons.2 ⟨hb, h.1⟩, fun c hc => ?_⟩
    rcases List.mem_cons.1 hc with rfl | hc
    · exact hv
    · exact h.2 c hc

/-- A write keeps the canonical form. -/
theorem Memory.wf_write {m : Memory} (a : Nat) (v : Word) (h : Memory.wf m) : Memory.wf (Memory.write m a v) := by
  induction m with
  | nil => exact Memory.wf_cons v h (by simp)
  | cons c m ih =>
    obtain ⟨d, w⟩ := c
    simp only [Memory.write]
    split
    next hlt =>
      refine Memory.wf_cons v h fun e he => ?_
      rcases List.mem_cons.1 he with rfl | he
      · exact hlt
      · exact Nat.lt_trans hlt (Memory.wf_head h e he)
    next hnlt =>
      split
      next e => subst e; exact Memory.wf_cons v (Memory.wf_tail h) (Memory.wf_head h)
      next hne =>
        have ih' := ih (Memory.wf_tail h)
        refine ⟨List.pairwise_cons.2 ⟨fun e he => ?_, ih'.1⟩, fun e he => ?_⟩
        · rcases Memory.mem_write he with rfl | he
          · exact Nat.lt_of_le_of_ne (Nat.le_of_not_lt hnlt) (Ne.symm hne)
          · exact Memory.wf_head h e he
        · rcases List.mem_cons.1 he with rfl | he
          · exact h.2 _ List.mem_cons_self
          · exact ih'.2 e he

end Sys2Proof.Machine
end

