-- ==== Sys2Proof/Laws/Ops.lean ====
section
/-! SUPPORT. Laws/Ops.lean: what each shared operation of Machine/Ops.lean and Machine/Operands.lean does, said once. -/

namespace Sys2Proof.Machine

variable (s : State)

/-! ### Registers -/

@[simp] theorem State.reg_setReg (r q : Reg) (v : Word) : (s.setReg r v).reg q = if q = r then v else s.reg q := by
  simp only [State.reg, State.setReg, Vector.get_eq_getElem, Vector.getElem_set]
  by_cases h : q = r
  · simp [h]
  · have : r.val ≠ q.val := fun e => h (Fin.ext e.symm)
    simp [h, this]

/-- The register file alone decides what a register reads. -/
theorem State.reg_congr {s t : State} (h : t.x = s.x) (r : Reg) : t.reg r = s.reg r := by simp [State.reg, h]

/-- Writing 0 to a register that holds 0 changes nothing. -/
theorem State.set_zero_self (h : s.reg 0 = 0) : s.x.set 0 0 = s.x := by
  refine Vector.ext fun i hi => ?_
  rw [Vector.getElem_set]
  split
  next e => subst e; simpa [State.reg, Vector.get_eq_getElem] using h.symm
  next => rfl

/-- The register file after a commit: the write port, then the forcing of register 0 (40_step_cycle.md R116, R117). -/
theorem State.reg_commit (e : Effect) (r : Reg) :
    (s.commit e).reg r = if r = 0 then 0 else
      match e.wr with
      | none => s.reg r
      | some (rd, v) => if r = rd then v else s.reg r := by
  have hx : (s.commit e).x = ((s.commitReg e.wr).forceZero).x := by simp [State.commit]
  rw [State.reg_congr hx]
  simp only [State.forceZero, State.reg_setReg]
  split
  · rfl
  · cases e.wr with
    | none => rfl
    | some w => simp [State.commitReg]

/-! ### Memory -/

/-- The memory alone decides what an address reads. -/
theorem State.memWord_congr {s t : State} (h : t.mem = s.mem) (a : Nat) : t.memWord a = s.memWord a := by
  simp [State.memWord, h]

theorem State.memWord_setMem_other {a b : Nat} (v : Word) (h : b ≠ a) : (s.setMem a v).memWord b = s.memWord b :=
  Memory.read_write_other s.mem v h

theorem State.memWord_setMem_same (a : Nat) (v : Word) (h : Memory.wf s.mem) : (s.setMem a v).memWord a = v :=
  Memory.read_write_same a v h

/-! ### Run state and fetch -/

/-- The run state depends on the latch's valid bit, pc and LEN alone. -/
theorem State.runState_congr {s t : State} (hv : t.fault.valid = s.fault.valid) (hp : t.pc = s.pc)
    (hl : t.prog.length = s.prog.length) : t.runState = s.runState := by
  unfold State.runState State.len
  rw [hv, hp, hl]

theorem State.runState_running : s.runState = .running ↔ s.fault.valid = false ∧ s.pc < s.prog.length := by
  unfold State.runState State.len
  by_cases hv : s.fault.valid = true <;> by_cases hp : s.pc < s.prog.length <;> simp [hv, hp]

/-- Fetch reads `prog[pc]` when Running, and nothing otherwise (40_step_cycle.md R110). -/
theorem State.fetch_eq_some {txt : Text} : s.fetch = some txt ↔ s.runState = .running ∧ s.prog[s.pc]? = some txt := by
  unfold State.fetch
  cases s.runState <;> simp

theorem State.fetch_eq_none : s.fetch = none ↔ s.runState ≠ .running := by
  unfold State.fetch
  cases h : s.runState <;> simp
  exact ((State.runState_running s).1 h).2

@[simp] theorem State.fetch_endReport : s.endReport.fetch = s.fetch := rfl

/-! ### Label tables -/

@[simp] theorem LabelTable.find_nil (name : Text) : LabelTable.find [] name = none := rfl

theorem LabelTable.find_bind_same (l : LabelTable) (name : Text) (i : Nat) :
    LabelTable.find (LabelTable.bind l name i) name = some i := by
  induction l with
  | nil => simp [LabelTable.bind, LabelTable.find]
  | cons e l ih =>
    simp only [LabelTable.bind]
    split
    · simp [LabelTable.find]
    next h => simp [LabelTable.find, h, ih]

theorem LabelTable.find_bind_other (l : LabelTable) {name other : Text} (i : Nat) (h : other ≠ name) :
    LabelTable.find (LabelTable.bind l name i) other = LabelTable.find l other := by
  induction l with
  | nil => simp [LabelTable.bind, LabelTable.find, h.symm]
  | cons e l ih =>
    simp only [LabelTable.bind]
    split
    next e => simp [LabelTable.find, e, h.symm]
    next => simp [LabelTable.find, ih]

/-- A name that is in no entry is not found. -/
theorem LabelTable.find_eq_none (l : LabelTable) (name : Text) :
    LabelTable.find l name = none ↔ name ∉ l.map Prod.fst := by
  induction l with
  | nil => simp
  | cons e l ih =>
    simp only [LabelTable.find]
    split
    next h => simp [h]
    next h => simp only [ih, List.map_cons, List.mem_cons, Ne.symm h, false_or]

/-- What is found is an entry. -/
theorem LabelTable.mem_of_find {l : LabelTable} {name : Text} {i : Nat} (h : LabelTable.find l name = some i) :
    (name, i) ∈ l := by
  induction l with
  | nil => simp at h
  | cons e l ih =>
    obtain ⟨n, j⟩ := e
    simp only [LabelTable.find] at h
    split at h
    next e => obtain rfl := Option.some.inj h; simp [e]
    next => exact List.mem_cons_of_mem _ (ih h)

/-- A binding is the one recorded or an old one. -/
theorem LabelTable.mem_bind {l : LabelTable} {name : Text} {i : Nat} {e : Text × Nat}
    (h : e ∈ LabelTable.bind l name i) : e = (name, i) ∨ e ∈ l := by
  induction l with
  | nil => simpa [LabelTable.bind] using h
  | cons d l ih =>
    simp only [LabelTable.bind] at h
    split at h
    · rcases List.mem_cons.1 h with rfl | h
      · exact .inl rfl
      · exact .inr (List.mem_cons_of_mem _ h)
    · rcases List.mem_cons.1 h with rfl | h
      · exact .inr List.mem_cons_self
      · exact (ih h).imp_right (List.mem_cons_of_mem _)

/-- The names of a table after recording a binding. -/
theorem LabelTable.names_bind (l : LabelTable) (name : Text) (i : Nat) :
    (LabelTable.bind l name i).map Prod.fst =
      if name ∈ l.map Prod.fst then l.map Prod.fst else l.map Prod.fst ++ [name] := by
  induction l with
  | nil => simp [LabelTable.bind]
  | cons d l ih =>
    simp only [LabelTable.bind]
    split
    next e => simp [e]
    next h =>
      simp only [List.map_cons, ih, List.mem_cons, Ne.symm h, false_or]
      split <;> simp

/-! ### Operands -/

/-- The effective address depends on one register and the bound alone. -/
theorem State.effectiveAddress_congr {s t : State} (off : Int) {base : Reg} (hr : t.reg base = s.reg base)
    (hp : t.params = s.params) : t.effectiveAddress off base = s.effectiveAddress off base := by
  unfold State.effectiveAddress State.addressSum
  rw [hr, hp]

/-- What an effective address can be (20_memory.md R57). -/
theorem State.effectiveAddress_cases (off : Int) (base : Reg) :
    (s.addressSum off base < 0 ∧ s.effectiveAddress off base = .error (.negativeAddress (s.addressSum off base))) ∨
    (0 ≤ s.addressSum off base ∧ Config.atOrAboveBound s.params (s.addressSum off base) = true ∧
      s.effectiveAddress off base = .error (.addressAboveBound (s.addressSum off base))) ∨
    (0 ≤ s.addressSum off base ∧ Config.atOrAboveBound s.params (s.addressSum off base) = false ∧
      s.effectiveAddress off base = .ok (s.addressSum off base).toNat) := by
  unfold State.effectiveAddress
  by_cases h : s.addressSum off base < 0
  · exact .inl ⟨h, by rw [if_pos h]⟩
  · rw [if_neg h]
    cases hb : Config.atOrAboveBound s.params (s.addressSum off base)
    · exact .inr (.inr ⟨not_lt.1 h, rfl, by simp⟩)
    · exact .inr (.inl ⟨not_lt.1 h, rfl, by simp⟩)

/-- Resolution depends on the label tables alone. -/
theorem State.resolve_congr {s t : State} (lab : Text) (he : t.lblExact = s.lblExact) (hu : t.lblUpper = s.lblUpper) :
    t.resolve lab = s.resolve lab := by simp [State.resolve, he, hu]

/-- What resolution can give (40_step_cycle.md R119). -/
theorem State.resolve_cases (lab : Text) :
    (∃ i, LabelTable.find s.lblExact lab = some i ∧ s.resolve lab = .ok i) ∨
    (∃ i, LabelTable.find s.lblExact lab = none ∧ LabelTable.find s.lblUpper (upper lab) = some i ∧
      s.resolve lab = .ok i) ∨
    (LabelTable.find s.lblExact lab = none ∧ LabelTable.find s.lblUpper (upper lab) = none ∧
      s.resolve lab = .error (.labelNotFound lab)) := by
  unfold State.resolve
  cases LabelTable.find s.lblExact lab with
  | some i => exact .inl ⟨i, rfl, rfl⟩
  | none =>
    cases LabelTable.find s.lblUpper (upper lab) with
    | some i => exact .inr (.inl ⟨i, rfl, rfl, rfl⟩)
    | none => exact .inr (.inr ⟨rfl, rfl, rfl⟩)

/-- A resolution that fails names the label. -/
theorem State.resolve_error {lab : Text} {c : FatalCause} (h : s.resolve lab = .error c) : c = .labelNotFound lab := by
  obtain ⟨i, -, e⟩ | ⟨i, -, -, e⟩ | ⟨-, -, e⟩ := s.resolve_cases lab <;> rw [e] at h <;> cases h
  rfl

/-! ### Finish -/

/-- The end of an instruction: commit or fault entry. -/
theorem State.finish_next {r : Except FatalCause Effect} {t : State} (h : s.finish r = .next t) :
    (∃ e, r = .ok e ∧ t = s.commit e) ∨ ∃ c, r = .error c ∧ t = s.enterFault c := by
  cases r with
  | ok e => exact .inl ⟨e, rfl, by simpa [State.finish] using h.symm⟩
  | error c => exact .inr ⟨c, rfl, by simpa [State.finish] using h.symm⟩

end Sys2Proof.Machine
end

