-- ==== Sys2Proof/Laws/Exec.lean ====
section
/-! SUPPORT. Laws/Exec.lean: what `exec` and `step` can do, said once: the effect of every instruction, and the cases of a step. -/

namespace Sys2Proof.Machine

variable (s : State)

/-- What `execute(d)` of spec/40_step_cycle.md R111 returns for a dispatched instruction. -/
def effectOf (i : Instr) (s : State) : Except FatalCause Effect :=
  match i with
  | .add rd rs1 rs2 => .ok { wr := some (rd, bvXlen (sint (s.reg rs1) + sint (s.reg rs2))), npc := s.pc + 1 }
  | .sub rd rs1 rs2 => .ok { wr := some (rd, bvXlen (sint (s.reg rs1) - sint (s.reg rs2))), npc := s.pc + 1 }
  | .li rd imm => .ok { wr := some (rd, bvXlen imm), npc := s.pc + 1 }
  | .lw rd off base =>
    (s.effectiveAddress off base).map fun a => { wr := some (rd, s.memWord a), npc := s.pc + 1, memAccess := 1 }
  | .sw rs2 off base =>
    (s.effectiveAddress off base).map fun a => { mw := some (a, s.reg rs2), npc := s.pc + 1, memAccess := 1 }
  | .beq rs1 rs2 lab =>
    if s.reg rs1 = s.reg rs2 then (s.resolve lab).map fun n => { npc := n } else .ok { npc := s.pc + 1 }
  | .jal lab => (s.resolve lab).map fun n => { wr := some (1, s.linkValue), npc := n }
  | .jalRd rd lab => (s.resolve lab).map fun n => { wr := some (rd, s.linkValue), npc := n }
  | .jRel n => .ok { npc := s.pc + n }
  | .jLab lab => (s.resolve lab).map fun n => { npc := n }
  | .unknown op => .ok { npc := s.pc + 1, diag := some { token := op, pc := s.pc } }
  | .empty => .ok { npc := s.pc + 1 }

theorem Except.bind_ok_map {α β : Type} (r : Except FatalCause α) (f : α → β) :
    (r.bind fun a => .ok (f a)) = r.map f := by cases r <;> rfl

/-- Every dispatched instruction finishes with its effect. -/
theorem exec_eq_finish {i : Instr} (h : i ≠ .empty) : exec i s = s.finish (effectOf i s) := by
  cases i with
  | empty => exact absurd rfl h
  | lw rd off base =>
    simp only [exec, execLw, effectOf, State.nextPc, Except.map]
    exact congrArg s.finish (Except.bind_ok_map _ _)
  | sw rs2 off base =>
    simp only [exec, execSw, effectOf, State.nextPc, Except.map]
    exact congrArg s.finish (Except.bind_ok_map _ _)
  | beq rs1 rs2 lab =>
    by_cases e : s.reg rs1 = s.reg rs2 <;>
      simp [exec, execBeq, effectOf, State.finishJump, State.regsEqual, State.nextPc, e, Except.map]
  | _ => rfl

@[simp] theorem exec_empty : exec .empty s = .next (s.setPc (s.pc + 1)) := rfl

/-- What `exec` can do: the empty instruction advances pc; every other one commits its effect or enters its fault. -/
theorem exec_next {i : Instr} {t : State} (h : exec i s = .next t) :
    (i = .empty ∧ t = s.setPc (s.pc + 1)) ∨
    (i ≠ .empty ∧ ∃ e, effectOf i s = .ok e ∧ t = s.commit e) ∨
    (i ≠ .empty ∧ ∃ c, effectOf i s = .error c ∧ t = s.enterFault c) := by
  by_cases hi : i = .empty
  · subst hi; exact .inl ⟨rfl, by simpa using h.symm⟩
  · rw [exec_eq_finish s hi] at h
    rcases s.finish_next h with hc | hf
    · exact .inr (.inl ⟨hi, hc⟩)
    · exact .inr (.inr ⟨hi, hf⟩)

/-- `exec` always answers a next state. -/
theorem exec_total (i : Instr) : ∃ t, exec i s = .next t := by
  by_cases hi : i = .empty
  · subst hi; exact ⟨_, rfl⟩
  · rw [exec_eq_finish s hi]
    cases effectOf i s <;> exact ⟨_, rfl⟩

/-- The state after one instruction, where the effect is known. -/
theorem exec_of_effect {i : Instr} {e : Effect} (hi : i ≠ .empty) (h : effectOf i s = .ok e) :
    exec i s = .next (s.commit e) := by rw [exec_eq_finish s hi, h]; rfl

/-- The state after one instruction, where it faults. -/
theorem exec_of_cause {i : Instr} {c : FatalCause} (hi : i ≠ .empty) (h : effectOf i s = .error c) :
    exec i s = .next (s.enterFault c) := by rw [exec_eq_finish s hi, h]; rfl

/-- The register writes an effect can hold: the destination of the instruction (spec/10_state.md R22). -/
theorem effectOf_wr {i : Instr} {e : Effect} (h : effectOf i s = .ok e) : e.wr.map Prod.fst = i.dest := by
  cases i <;> simp only [effectOf, Except.map, Instr.dest] at h ⊢
  case beq =>
    split at h
    · split at h <;> cases h; rfl
    · cases h; rfl
  all_goals (try split at h) <;> (cases h; try rfl)

/-- Only SW holds a memory write, at its effective address (spec/20_memory.md R56). -/
theorem effectOf_mw {i : Instr} {e : Effect} (h : effectOf i s = .ok e) :
    e.mw = none ∨ ∃ rs2 off base a, i = .sw rs2 off base ∧ s.effectiveAddress off base = .ok a ∧
      e.mw = some (a, s.reg rs2) := by
  cases i <;> simp only [effectOf, Except.map] at h
  case sw rs2 off base =>
    split at h
    · cases h
    next a ha => cases h; exact .inr ⟨rs2, off, base, a, rfl, ha, rfl⟩
  case beq =>
    split at h
    · split at h <;> cases h; exact .inl rfl
    · cases h; exact .inl rfl
  all_goals (try split at h) <;> (cases h; try exact .inl rfl)

/-- The memory accesses an effect counts (spec/40_step_cycle.md R114). -/
theorem effectOf_memAccess {i : Instr} {e : Effect} (h : effectOf i s = .ok e) :
    e.memAccess = if i.isMemory then 1 else 0 := by
  cases i <;> simp only [effectOf, Except.map, Instr.isMemory] at h ⊢
  case beq =>
    split at h
    · split at h <;> cases h; rfl
    · cases h; rfl
  all_goals (try split at h) <;> (cases h; try rfl)

/-- Only an unknown opcode reports (spec/44_noop.md R171). -/
theorem effectOf_diag {i : Instr} {e : Effect} (h : effectOf i s = .ok e) :
    (∃ op, i = .unknown op ∧ e.diag = some { token := op, pc := s.pc } ∧ e.npc = s.pc + 1) ∨
      ((∀ op, i ≠ .unknown op) ∧ e.diag = none) := by
  cases i <;> simp only [effectOf, Except.map] at h
  case unknown op => cases h; exact .inl ⟨op, rfl, rfl, rfl⟩
  case beq =>
    split at h
    · split at h <;> cases h; exact .inr ⟨by simp, rfl⟩
    · cases h; exact .inr ⟨by simp, rfl⟩
  all_goals (try split at h) <;> (cases h; try exact .inr ⟨by simp, rfl⟩)

/-- The fatal conditions of execution: a label that is resolved and not found, or an address out of range
(spec/60_exceptions.md R182, R183). -/
theorem effectOf_error {i : Instr} {c : FatalCause} (h : effectOf i s = .error c) :
    (∃ lab, s.resolve lab = .error c ∧ (i = .jal lab ∨ (∃ rd, i = .jalRd rd lab) ∨ i = .jLab lab ∨
        ∃ rs1 rs2, i = .beq rs1 rs2 lab ∧ s.reg rs1 = s.reg rs2)) ∨
    ∃ off base, s.effectiveAddress off base = .error c ∧
      ((∃ rd, i = .lw rd off base) ∨ ∃ rs2, i = .sw rs2 off base) := by
  cases i <;> simp only [effectOf, Except.map] at h
  case lw rd off base =>
    split at h
    next hc => cases h; exact .inr ⟨off, base, hc, .inl ⟨rd, rfl⟩⟩
    · cases h
  case sw rs2 off base =>
    split at h
    next hc => cases h; exact .inr ⟨off, base, hc, .inr ⟨rs2, rfl⟩⟩
    · cases h
  case beq rs1 rs2 lab =>
    split at h
    next he =>
      split at h
      next hc => cases h; exact .inl ⟨lab, hc, .inr (.inr (.inr ⟨rs1, rs2, rfl, he⟩))⟩
      · cases h
    · cases h
  case jal lab =>
    split at h
    next hc => cases h; exact .inl ⟨lab, hc, .inl rfl⟩
    · cases h
  case jalRd rd lab =>
    split at h
    next hc => cases h; exact .inl ⟨lab, hc, .inr (.inl ⟨rd, rfl⟩)⟩
    · cases h
  case jLab lab =>
    split at h
    next hc => cases h; exact .inl ⟨lab, hc, .inr (.inr (.inl rfl))⟩
    · cases h
  all_goals cases h

/-! ### Step -/

/-- A step request while not Running ends the report and does nothing else (spec/10_state.md R37). -/
theorem step_not_running (h : s.runState ≠ .running) : step s = .next s.endReport := by
  simp [step, (s.fetch_eq_none).2 h]

/-- A step executes the instruction decoded from `prog[pc]`. -/
theorem step_exec {txt : Text} {i : Instr} (hf : s.fetch = some txt) (hd : decode txt = .ok i) :
    step s = exec i s.endReport := by simp [step, hf, hd]

/-- A step enters the fault that decoding raises. -/
theorem step_decode_fault {txt : Text} {c : FatalCause} (hf : s.fetch = some txt) (hd : decode txt = .error c) :
    step s = .next (s.endReport.enterFault c) := by simp [step, hf, hd]

/-- Every step request answers a next state. -/
theorem step_total : ∃ t, step s = .next t := by
  unfold step
  split
  · exact ⟨_, rfl⟩
  · split
    · exact exec_total _ _
    · exact ⟨_, rfl⟩

/-- What a step can do: nothing (not Running), advance over an empty instruction, commit an effect, or enter a fault. -/
theorem step_next {t : State} (h : step s = .next t) :
    (s.runState ≠ .running ∧ t = s.endReport) ∨
    ∃ txt, s.fetch = some txt ∧
      ((decode txt = .ok .empty ∧ t = s.endReport.setPc (s.pc + 1)) ∨
       (∃ i e, decode txt = .ok i ∧ i ≠ .empty ∧ effectOf i s.endReport = .ok e ∧ t = s.endReport.commit e) ∨
       (∃ i c, decode txt = .ok i ∧ i ≠ .empty ∧ effectOf i s.endReport = .error c ∧
          t = s.endReport.enterFault c) ∨
       ∃ c, decode txt = .error c ∧ t = s.endReport.enterFault c) := by
  cases hf : s.fetch with
  | none =>
    have hr := (s.fetch_eq_none).1 hf
    rw [step_not_running s hr] at h
    exact .inl ⟨hr, by simpa using h.symm⟩
  | some txt =>
    refine .inr ⟨txt, rfl, ?_⟩
    cases hd : decode txt with
    | error c =>
      rw [step_decode_fault s hf hd] at h
      exact .inr (.inr (.inr ⟨c, rfl, by simpa using h.symm⟩))
    | ok i =>
      rw [step_exec s hf hd] at h
      rcases exec_next _ h with ⟨rfl, ht⟩ | ⟨hi, e, he, ht⟩ | ⟨hi, c, hc, ht⟩
      · exact .inl ⟨rfl, by simpa using ht⟩
      · exact .inr (.inl ⟨i, e, rfl, hi, he, ht⟩)
      · exact .inr (.inr (.inl ⟨i, c, rfl, hi, hc, ht⟩))

/-- A step never changes the read-only inputs and the parameters. -/
theorem step_inputs {t : State} (h : step s = .next t) : s.InputsKept t := by
  rcases step_next s h with ⟨-, rfl⟩ | ⟨_, -, ⟨-, rfl⟩ | ⟨_, _, -, -, -, rfl⟩ | ⟨_, _, -, -, -, rfl⟩ | ⟨_, -, rfl⟩⟩ <;>
    simp [State.InputsKept]

/-- `after` is what `step` answers. -/
theorem after_eq {t : State} (h : step s = .next t) : s.after = t := by simp [State.after, h]

end Sys2Proof.Machine
end

