-- ==== Sys2Proof/Laws/Loader.lean ====
section
/-! SUPPORT. Laws/Loader.lean: what one raw line can do to the program, and what every loaded program satisfies. -/

namespace Sys2Proof.Machine

/-! ### Label tables -/

theorem LabelTable.distinct_bind {l : LabelTable} (h : l.distinct) (name : Text) (i : Nat) :
    (LabelTable.bind l name i).distinct := by
  rw [LabelTable.distinct, LabelTable.names_bind]
  split
  · exact h
  next hn => exact List.nodup_append.2 ⟨h, by simp, fun a ha b hb => by
      obtain rfl := List.mem_singleton.1 hb; rintro rfl; exact hn ha⟩

theorem LabelTable.within_bind {l : LabelTable} {n : Nat} (h : l.within n) (name : Text) {i : Nat} (hi : i ≤ n) :
    (LabelTable.bind l name i).within n := fun _ he =>
  (LabelTable.mem_bind he).elim (fun e => e ▸ hi) (h _)

theorem LabelTable.within_mono {l : LabelTable} {n m : Nat} (h : l.within n) (hnm : n ≤ m) : l.within m :=
  fun e he => Nat.le_trans (h e he) hnm

/-! ### Text pieces -/

theorem mem_stripBoth {p : Char → Bool} {s : Text} {c : Char} (h : c ∈ stripBoth p s) : c ∈ s := by
  have h1 := List.mem_reverse.1 h
  have h2 := List.mem_reverse.1 ((List.dropWhile_suffix p).subset h1)
  exact (List.dropWhile_suffix p).subset h2

theorem mem_stripComment {marker : Char} {s : Text} {c : Char} (h : c ∈ stripComment marker s) : c ∈ s := by
  unfold stripComment at h
  split at h
  next hs => rw [(splitFirst_some hs).2]; exact List.mem_append_left _ h
  next => exact h

/-! ### Lines -/

/-- What the loader guarantees of a program (spec/30_encoding.md R70, R76). -/
structure Program.Good (p : Program) : Prop where
  ascii         : ∀ t ∈ p.prog, t.all isAscii = true
  exactDistinct : p.lblExact.distinct
  upperDistinct : p.lblUpper.distinct
  exactWithin   : p.lblExact.within p.prog.length
  upperWithin   : p.lblUpper.within p.prog.length

theorem Program.good_start : Program.start.Good :=
  ⟨by simp [Program.start], List.nodup_nil, List.nodup_nil, by simp [Program.start], by simp [Program.start]⟩

theorem Program.Good.bindLabel {p : Program} (h : p.Good) (label : Text) : (p.bindLabel label).Good where
  ascii := h.ascii
  exactDistinct := LabelTable.distinct_bind h.exactDistinct _ _
  upperDistinct := LabelTable.distinct_bind h.upperDistinct _ _
  exactWithin := LabelTable.within_bind h.exactWithin _ (Nat.le_refl _)
  upperWithin := LabelTable.within_bind h.upperWithin _ (Nat.le_refl _)

theorem Program.Good.append {p : Program} (h : p.Good) {s : Text} (hs : s.all isAscii = true) : (p.append s).Good where
  ascii := fun t ht => by
    rcases List.mem_append.1 ht with ht | ht
    · exact h.ascii t ht
    · obtain rfl := List.mem_singleton.1 ht
      exact List.all_eq_true.2 fun c hc => List.all_eq_true.1 hs c (mem_stripBoth hc)
  exactDistinct := h.exactDistinct
  upperDistinct := h.upperDistinct
  exactWithin := LabelTable.within_mono h.exactWithin (by simp [Program.append])
  upperWithin := LabelTable.within_mono h.upperWithin (by simp [Program.append])

/-- What a line can do: nothing, an instruction, a label, or a label and an instruction. -/
theorem Program.addLine_cases (marker : Char) (p : Program) (line : Text) :
    p.addLine marker line = p ∨
    (∃ s, (∀ c ∈ s, c ∈ line) ∧ p.addLine marker line = p.append s) ∨
    (∃ label, p.addLine marker line = p.bindLabel label) ∨
    ∃ label s, (∀ c ∈ s, c ∈ line) ∧ p.addLine marker line = (p.bindLabel label).append s := by
  have hsub : ∀ c ∈ trim (stripComment marker line), c ∈ line := fun c hc => mem_stripComment (mem_stripBoth hc)
  unfold Program.addLine
  split
  · exact .inl rfl
  · unfold Program.addStripped
    split
    · exact .inr (.inl ⟨_, hsub, rfl⟩)
    next label rest hs =>
      have hrest : ∀ c ∈ trim rest, c ∈ line := fun c hc => hsub c (by
        rw [(splitFirst_some hs).2]; exact List.mem_append_right _ (List.mem_cons_of_mem _ (mem_stripBoth hc)))
      split
      · exact .inr (.inr (.inl ⟨label, rfl⟩))
      · exact .inr (.inr (.inr ⟨label, _, hrest, rfl⟩))

theorem Program.Good.addLine {p : Program} (h : p.Good) (marker : Char) {line : Text} (hl : line.all isAscii = true) :
    (p.addLine marker line).Good := by
  have hs : ∀ s : Text, (∀ c ∈ s, c ∈ line) → s.all isAscii = true := fun s hs =>
    List.all_eq_true.2 fun c hc => List.all_eq_true.1 hl c (hs c hc)
  rcases p.addLine_cases marker line with e | ⟨s, hm, e⟩ | ⟨label, e⟩ | ⟨label, s, hm, e⟩ <;> rw [e]
  · exact h
  · exact h.append (hs s hm)
  · exact h.bindLabel label
  · exact (h.bindLabel label).append (hs s hm)

/-- Every program the loader makes of ASCII lines is good. -/
theorem Program.good_ofLines (marker : Char) {lines : List Text} (hl : lines.all (·.all isAscii) = true) :
    (Program.ofLines marker lines).Good := by
  have key : ∀ (lines : List Text) (p : Program), p.Good → lines.all (·.all isAscii) = true →
      (lines.foldl (Program.addLine marker) p).Good := by
    intro lines
    induction lines with
    | nil => exact fun p h _ => h
    | cons l ls ih =>
      intro p h hl
      simp only [List.all_cons, Bool.and_eq_true] at hl
      exact ih _ (h.addLine marker hl.1) hl.2
  exact key lines Program.start Program.good_start hl

/-- When the loader admits a sequence of lines. -/
theorem loadProgram_some {marker : Char} {lines : List Text} {p : Program} (h : loadProgram marker lines = some p) :
    lines.all (·.all isAscii) = true ∧ p = Program.ofLines marker lines ∧ p.prog.length < lenBound := by
  unfold loadProgram at h
  split at h
  next hc => cases h; exact ⟨hc.1, rfl, hc.2⟩
  next => cases h

end Sys2Proof.Machine
end

