-- ==== Sys2Proof/Laws/PerInstr.lean ====
section
/-! SUPPORT. Laws/PerInstr.lean: the per-instruction family EncodeTokens: the string that spells a well-formed instruction has the
instruction's tokens (spec/30_encoding.md R80, R89). -/

namespace Sys2Proof

/-- A text whose characters are their own uppercase and no separators, and that is not empty. -/
def PlainToken (t : Text) : Prop := t ≠ [] ∧ ∀ c ∈ t, isSeparator c = false ∧ upperChar c = c

theorem PlainToken.of_isUpperToken {t : Text} (h : isUpperToken t = true) : PlainToken t := by
  simp only [isUpperToken, Bool.and_eq_true, Bool.not_eq_true', List.isEmpty_eq_false_iff, List.all_eq_true,
    beq_iff_eq] at h
  exact ⟨h.1, fun c hc => ⟨(h.2 c hc).1.2, (h.2 c hc).2⟩⟩

theorem PlainToken.natText (n : Nat) : PlainToken (natText n) :=
  ⟨natText_ne_nil n, fun _ hc =>
    ⟨(isDigit_plain (isDigit_of_mem_natText hc)).1, (isDigit_plain (isDigit_of_mem_natText hc)).2.1⟩⟩

theorem PlainToken.regText (r : Reg) : PlainToken (regText r) := PlainToken.natText r.val

theorem plain_intText {v : Int} {c : Char} (h : c ∈ intText v) : isSeparator c = false ∧ upperChar c = c := by
  rcases mem_intText h with h | rfl
  · exact ⟨(isDigit_plain h).1, (isDigit_plain h).2.1⟩
  · decide

theorem PlainToken.intText (v : Int) : PlainToken (intText v) := ⟨intText_ne_nil v, fun _ => plain_intText⟩

theorem PlainToken.memText (off : Int) (base : Reg) : PlainToken (memText off base) := by
  refine ⟨by simp [Sys2Proof.memText], fun c hc => ?_⟩
  simp only [Sys2Proof.memText, List.mem_append, List.mem_cons, List.not_mem_nil, or_false] at hc
  rcases hc with hc | rfl | hc | rfl
  · exact plain_intText hc
  · decide
  · exact (PlainToken.regText base).2 c hc
  · decide

theorem PlainToken.spelling (o : Opcode) : PlainToken o.spelling := by
  have h : o.spelling.all (fun c => !isSeparator c && upperChar c == c) = true := by cases o <;> decide
  exact ⟨by cases o <;> decide, fun c hc => by simpa using List.all_eq_true.1 h c hc⟩

theorem mem_joinTokens {ts : List Text} {c : Char} (h : c ∈ joinTokens ts) : c = ' ' ∨ ∃ t ∈ ts, c ∈ t := by
  induction ts with
  | nil => cases h
  | cons t ts ih =>
    cases ts with
    | nil => exact .inr ⟨t, List.mem_cons_self, h⟩
    | cons u ts =>
      have h' : c ∈ t ++ ' ' :: joinTokens (u :: ts) := h
      rcases List.mem_append.1 h' with h | h
      · exact .inr ⟨t, List.mem_cons_self, h⟩
      · rcases List.mem_cons.1 h with rfl | h
        · exact .inl rfl
        · exact (ih h).imp_right fun ⟨v, hv, hc⟩ => ⟨v, List.mem_cons_of_mem _ hv, hc⟩

/-- Plain tokens joined by spaces are tokenized to themselves. -/
theorem tokensOf_joinTokens {ts : List Text} (h : ∀ t ∈ ts, PlainToken t) : tokensOf (joinTokens ts) = ts := by
  have hu : upper (joinTokens ts) = joinTokens ts := upper_eq_self fun c hc => by
    rcases mem_joinTokens hc with rfl | ⟨t, ht, hc⟩
    · decide
    · exact ((h t ht).2 c hc).2
  rw [tokensOf, hu]
  exact tokenize_joinTokens fun t ht => ⟨(h t ht).1, fun c hc => ((h t ht).2 c hc).1⟩

namespace Laws.EncodeTokens

/-- The tokens of the instruction's spelling are the instruction's tokens. -/
def Statement (i : Instr) : Prop := i.wellFormed = true → tokensOf (encode i) = i.tokens

theorem add (rd rs1 rs2 : Reg) : Statement (.add rd rs1 rs2) := fun _ => tokensOf_joinTokens (by
  simp [Instr.tokens, PlainToken.spelling, PlainToken.regText])

theorem sub (rd rs1 rs2 : Reg) : Statement (.sub rd rs1 rs2) := fun _ => tokensOf_joinTokens (by
  simp [Instr.tokens, PlainToken.spelling, PlainToken.regText])

theorem li (rd : Reg) (imm : Int) : Statement (.li rd imm) := fun _ => tokensOf_joinTokens (by
  simp [Instr.tokens, PlainToken.spelling, PlainToken.regText, PlainToken.intText])

theorem lw (rd : Reg) (off : Int) (base : Reg) : Statement (.lw rd off base) := fun _ => tokensOf_joinTokens (by
  simp [Instr.tokens, PlainToken.spelling, PlainToken.regText, PlainToken.memText])

theorem sw (rs2 : Reg) (off : Int) (base : Reg) : Statement (.sw rs2 off base) := fun _ => tokensOf_joinTokens (by
  simp [Instr.tokens, PlainToken.spelling, PlainToken.regText, PlainToken.memText])

theorem beq (rs1 rs2 : Reg) (lab : Text) : Statement (.beq rs1 rs2 lab) := fun h => tokensOf_joinTokens (by
  simp [Instr.tokens, PlainToken.spelling, PlainToken.regText, PlainToken.of_isUpperToken h])

theorem jal (lab : Text) : Statement (.jal lab) := fun h => tokensOf_joinTokens (by
  simp [Instr.tokens, PlainToken.spelling, PlainToken.of_isUpperToken h])

theorem jalRd (rd : Reg) (lab : Text) : Statement (.jalRd rd lab) := fun h => tokensOf_joinTokens (by
  simp [Instr.tokens, PlainToken.spelling, PlainToken.regText, PlainToken.of_isUpperToken h])

theorem jRel (n : Nat) : Statement (.jRel n) := fun _ => tokensOf_joinTokens (by
  simp [Instr.tokens, PlainToken.spelling, PlainToken.natText])

theorem jLab (lab : Text) : Statement (.jLab lab) := fun h => by
  have hl : isUpperToken lab = true := by simp [Instr.wellFormed] at h; exact h.1
  exact tokensOf_joinTokens (by simp [Instr.tokens, PlainToken.spelling, PlainToken.of_isUpperToken hl])

theorem unknown (op : Text) : Statement (.unknown op) := fun h => by
  have hl : isUpperToken op = true := by simp [Instr.wellFormed] at h; exact h.1
  exact tokensOf_joinTokens (by simp [Instr.tokens, PlainToken.of_isUpperToken hl])

theorem empty : Statement .empty := fun _ => rfl

end Laws.EncodeTokens

end Sys2Proof
end

