-- ==== Sys2Proof/Tests/Slice0.lean ====
section
/-! SUPPORT. Tests/Slice0.lean: small tests, whose expected results are the vectors of spec/95_test_vectors.md (named in the
docstrings) or hand-computed from the rules named there, and a witness for the hypotheses of every statement of
Certificates/Slice0/Obligations.lean that has any. -/

namespace Sys2Proof.Tests

open Sys2Proof.Machine

/-! ### Helpers -/

/-- The state a reader sees at the start of a vector of spec/95_test_vectors.md: a program, label tables, a pc and some
registers, everything else as after reset. -/
def machine (prog : List String) (exact upperT : List (String × Nat)) (pc : Nat) (regs : List (Reg × Int)) : State :=
  { State.reset with
    prog := prog.map String.toList
    lblExact := exact.map fun e => (e.1.toList, e.2)
    lblUpper := upperT.map fun e => (e.1.toList, e.2)
    pc := pc
    x := regs.foldl (fun x r => x.set r.1.val (bvXlen r.2) r.1.isLt) (Vector.replicate 32 0) }

/-- One instruction at index 0 of a two-slot program, with some registers. -/
def one (txt : String) (regs : List (Reg × Int)) : State := machine [txt, ""] [] [] 0 regs

/-- The labels of the vectors C1 to C33: `{done:7, L:4}` and `{DONE:7, L:4}`, and eight slots. -/
def jumps (txt : String) (pc : Nat) (regs : List (Reg × Int)) : State :=
  machine (List.replicate pc "" ++ txt :: List.replicate (7 - pc) "") [("done", 7), ("L", 4)] [("DONE", 7), ("L", 4)] pc regs

/-- The outcome is a next state for which `p` is true. -/
def nextIs (o : Host.Outcome State Fault Refusal) (p : State → Bool) : Bool :=
  match o with
  | .next t => p t
  | .fault _ => false
  | .refused _ => false

theorem exists_next_of_nextIs {o : Host.Outcome State Fault Refusal} {p : State → Bool} (h : nextIs o p = true) :
    ∃ t, o = .next t ∧ p t = true := by
  cases o with
  | next t => exact ⟨t, rfl, h⟩
  | fault r => exact nomatch r
  | refused r => simp [nextIs] at h

/-- One step reaches a state for which `p` is true. -/
def stepIs (s : State) (p : State → Bool) : Bool := nextIs (step s) p

/-- A register reads as a signed integer. -/
def xIs (t : State) (r : Reg) (v : Int) : Bool := decide ((t.reg r).toInt = v)

/-- pc and the three counters. -/
def ctrIs (t : State) (pc instr mem : Nat) : Bool :=
  t.pc == pc && t.ctrInstr == instr && t.ctrCycle == instr && t.ctrMem == mem

/-- The latch of a fault, with a token recorded. -/
def tokenFault (t : State) (code sub : Nat) (tok : String) (fpc : Nat) : Bool :=
  decide (t.fault = { valid := true, code := code, sub := sub, info := .token tok.toList, fpc := fpc })

/-- What a string decodes to. -/
def decodesTo (s : String) (i : Instr) : Bool := decide ((decode s.toList).toOption = some i)

/-- What fatal condition the decoding of a string raises. -/
def decodeFault (s : String) (c : FatalCause) : Bool :=
  match decode s.toList with
  | .ok _ => false
  | .error d => decide (d = c)

/-! ### WellFormed refuses ill-formed terms (30_encoding.md R85) -/

theorem test_wf_li_low : (Instr.li 1 (-2147483649)).wellFormed = false := by decide
theorem test_wf_li_high : (Instr.li 1 2147483648).wellFormed = false := by decide
theorem test_wf_li_ends : ((Instr.li 1 (-2147483648)).wellFormed && (Instr.li 1 2147483647).wellFormed) = true := by decide
theorem test_wf_lw : (Instr.lw 1 2147483648 2).wellFormed = false := by decide
theorem test_wf_sw : (Instr.sw 1 (-2147483649) 2).wellFormed = false := by decide
theorem test_wf_beq_lowercase : (Instr.beq 1 2 "done".toList).wellFormed = false := by decide
theorem test_wf_jal_empty : (Instr.jal []).wellFormed = false := by decide
theorem test_wf_jalRd_separator : (Instr.jalRd 1 "A B".toList).wellFormed = false := by decide
theorem test_wf_jLab_literal : (Instr.jLab "12".toList).wellFormed = false := by decide
theorem test_wf_jLab_lowercase : (Instr.jLab "x".toList).wellFormed = false := by decide
theorem test_wf_unknown_recognised : (Instr.unknown "ADD".toList).wellFormed = false := by decide
theorem test_wf_unknown_comma : (Instr.unknown "A,B".toList).wellFormed = false := by decide

/-! ### Decoding: every constructor from a string of the formats of 30_encoding.md R89 -/

/-- T1, T2, T3, T4. -/
theorem test_decode_add : (decodesTo "add 1,2, 3" (.add 1 2 3) && decodesTo ",ADD,1,,2,3," (.add 1 2 3) &&
    decodesTo "Add\t1 \t 2\r3" (.add 1 2 3) && decodesTo "ADD 007 01 0" (.add 7 1 0)) = true := by decide
/-- A9: rd, rs1, rs2 in this order. -/
theorem test_decode_sub : decodesTo "SUB 7 6 5" (.sub 7 6 5) = true := by decide
/-- A14, A17, A18. -/
theorem test_decode_li : (decodesTo "LI 1 -1" (.li 1 (-1)) && decodesTo "LI 1 +5" (.li 1 5) && decodesTo "LI 1 -0" (.li 1 0)) =
    true := by decide
/-- T10, M3. -/
theorem test_decode_lw : (decodesTo "lw 3 -4(31)" (.lw 3 (-4) 31) && decodesTo "LW 1 (2)" (.lw 1 0 2)) = true := by decide
/-- T11, M24. -/
theorem test_decode_sw : (decodesTo "sw 3 (0)" (.sw 3 0 0) && decodesTo "SW 1 1(2)" (.sw 1 1 2)) = true := by decide
/-- T12. -/
theorem test_decode_beq : decodesTo "beq 1 2 5" (.beq 1 2 ['5']) = true := by decide
/-- T5, C15. -/
theorem test_decode_jal : (decodesTo "jal loop" (.jal "LOOP".toList) && decodesTo "JAL 5" (.jal ['5'])) = true := by decide
/-- T6. -/
theorem test_decode_jalRd : decodesTo "jal 9, loop" (.jalRd 9 "LOOP".toList) = true := by decide
/-- T7, C23. -/
theorem test_decode_jRel : (decodesTo "j 12" (.jRel 12) && decodesTo "J 007" (.jRel 7)) = true := by decide
/-- T8, T9, C26. -/
theorem test_decode_jLab : (decodesTo "j +12" (.jLab "+12".toList) && decodesTo "j x12" (.jLab "X12".toList) &&
    decodesTo "J -1" (.jLab "-1".toList)) = true := by decide
/-- T13, T15, T16, U4. -/
theorem test_decode_unknown : (decodesTo "frob 1 (((" (.unknown "FROB".toList) && decodesTo "b: ADD 1 2 3" (.unknown "B:".toList) &&
    decodesTo "ADD1 2 3" (.unknown "ADD1".toList) && decodesTo ".word 5" (.unknown ".WORD".toList)) = true := by decide
/-- T14, U8, U9. -/
theorem test_decode_empty : (decodesTo " , ," .empty && decodesTo "" .empty && decodesTo "," .empty) = true := by decide

/-! ### Decoding: the fatal conditions -/

/-- A23, A24, A27, C8, C19, C30, C31: the operand count. -/
theorem test_operandCount : (decodeFault "LI 1" (.operandCount "LI".toList) && decodeFault "LI 1 2 3" (.operandCount "LI".toList) &&
    decodeFault "ADD 1 2" (.operandCount "ADD".toList) && decodeFault "BEQ 1 2" (.operandCount "BEQ".toList) &&
    decodeFault "JAL 1 2 L" (.operandCount "JAL".toList) && decodeFault "J" (.operandCount "J".toList) &&
    decodeFault "J 1 2" (.operandCount "J".toList)) = true := by decide
/-- A25, A30, A31, A33. -/
theorem test_regSyntax : (decodeFault "LI A 5" (.regSyntax "A".toList) && decodeFault "ADD X1 2 3" (.regSyntax "X1".toList) &&
    decodeFault "ADD 1 -2 3" (.regSyntax "-2".toList) && decodeFault "add 1 t0 2" (.regSyntax "T0".toList)) = true := by decide
/-- A26, A29, A32: the range check, and operands from left to right. -/
theorem test_regRange : (decodeFault "LI 99 X" (.regRange "99".toList) && decodeFault "ADD 32 1 2" (.regRange "32".toList) &&
    decodeFault "SUB 40 X 3" (.regRange "40".toList)) = true := by decide
/-- A20, A21, A22. -/
theorem test_int : (decodeFault "LI 1 2147483648" (.intRange "2147483648".toList) &&
    decodeFault "LI 1 0x10" (.intSyntax "0X10".toList) && decodeFault "LI 1 five" (.intSyntax "FIVE".toList)) = true := by decide
/-- M12 to M17. -/
theorem test_memSyntax : (decodeFault "LW 1 4 (2)" (.operandCount "LW".toList) && decodeFault "LW 1 4(2" (.memSyntax "4(2".toList) &&
    decodeFault "LW 1 4(2))" (.memSyntax "4(2))".toList) && decodeFault "LW 1 ((2))" (.memSyntax "((2))".toList) &&
    decodeFault "LW 1 4" (.memSyntax ['4']) && decodeFault "LW 1 A(X)" (.intSyntax ['A'])) = true := by decide
/-- M18 to M22: inside the parentheses, and rd before the memory operand. -/
theorem test_memOperand : (decodeFault "LW 1 4(X2)" (.regSyntax "X2".toList) && decodeFault "LW 1 4(32)" (.regRange "32".toList) &&
    decodeFault "LW 1 9999999999(2)" (.intRange "9999999999".toList) && decodeFault "LW 40 A(2)" (.regRange "40".toList) &&
    decodeFault "SW 1 -1(32)" (.regRange "32".toList)) = true := by decide

/-! ### One step of each instruction -/

/-- A2: ADD wraps. -/
theorem test_add_wraps : stepIs (one "ADD 3 1 2" [(1, 2147483647), (2, 1)])
    (fun t => xIs t 3 (-2147483648) && ctrIs t 1 1 0 && t.fault.valid == false) = true := by decide
/-- A6: register 0 as destination. -/
theorem test_add_zero : stepIs (one "ADD 0 1 2" [(1, 5), (2, 7)]) (fun t => xIs t 0 0 && xIs t 1 5 && ctrIs t 1 1 0) = true := by
  decide
/-- A8: the order of SUB's operands. -/
theorem test_sub_order : stepIs (one "SUB 7 5 6" [(5, 3), (6, 10)]) (fun t => xIs t 7 (-7) && xIs t 5 3 && ctrIs t 1 1 0) = true := by
  decide
/-- A12: SUB wraps. -/
theorem test_sub_wraps : stepIs (one "SUB 3 1 2" [(1, -2147483648), (2, 1)]) (fun t => xIs t 3 2147483647) = true := by decide
/-- A16. -/
theorem test_li_lowest : stepIs (one "LI 1 -2147483648" []) (fun t => xIs t 1 (-2147483648) && ctrIs t 1 1 0) = true := by decide
/-- A20: a faulting LI writes nothing. -/
theorem test_li_range : stepIs (one "LI 1 2147483648" [(1, 4)])
    (fun t => tokenFault t 1 5 "2147483648" 0 && xIs t 1 4 && ctrIs t 0 0 0) = true := by decide
/-- M7: the base is signed and the address exact. -/
theorem test_lw_signedBase : stepIs { one "LW 1 5(2)" [(2, -3)] with mem := [(2, 44)] }
    (fun t => xIs t 1 44 && ctrIs t 1 1 1) = true := by decide
/-- M9: at or above a set bound. -/
theorem test_lw_bound : stepIs { one "LW 1 2147483647(2)" [(2, 2147483647)] with
      params := { memAddrBound := some 1024, commentMarker := '#' } }
    (fun t => decide (t.fault = { valid := true, code := 3, sub := 2, info := .address 4294967294, fpc := 0 }) &&
      xIs t 1 0 && ctrIs t 0 0 0) = true := by decide
/-- M24: adjacent words do not overlap. -/
theorem test_sw_words : stepIs { one "SW 1 1(2)" [(1, 7), (2, 100)] with mem := [(100, 7)] }
    (fun t => decide (t.mem = [(100, 7), (101, 7)]) && ctrIs t 1 1 1) = true := by decide
/-- M25: storing the reset value unlists the word. -/
theorem test_sw_zero : stepIs { one "SW 0 3(0)" [] with mem := [(3, 5)] }
    (fun t => decide (t.mem = []) && decide (t.memWord 3 = 0)) = true := by decide
/-- C1. -/
theorem test_beq_taken : stepIs (jumps "BEQ 3 5 done" 2 [(3, 10), (5, 10)]) (fun t => ctrIs t 7 1 0) = true := by decide
/-- C3: a branch that is not taken does not resolve its label. -/
theorem test_beq_notTaken : stepIs (jumps "BEQ 1 2 nowhere" 0 [(2, 1)]) (fun t => ctrIs t 1 1 0 && t.fault.valid == false) = true := by
  decide
/-- C10. -/
theorem test_jal_links : stepIs (jumps "JAL L" 3 []) (fun t => xIs t 1 4 && ctrIs t 4 1 0) = true := by decide
/-- C14: the link is not written by a fault. -/
theorem test_jal_notFound : stepIs (jumps "JAL nowhere" 2 [(1, 7)]) (fun t => xIs t 1 7 && tokenFault t 2 0 "NOWHERE" 2) = true := by
  decide
/-- C11: register 1 is not written. -/
theorem test_jalRd_links : stepIs (jumps "JAL 9, L" 1 []) (fun t => xIs t 9 2 && xIs t 1 0 && ctrIs t 4 1 0) = true := by decide
/-- C12: the link to register 0. -/
theorem test_jalRd_zero : stepIs (jumps "JAL 0 L" 2 []) (fun t => xIs t 0 0 && ctrIs t 4 1 0) = true := by decide
/-- C25: relative, although a label `3` exists. -/
theorem test_jRel_overLabel : stepIs (machine ["", "J 3"] [("3", 0)] [("3", 0)] 1 []) (fun t => ctrIs t 4 1 0) = true := by decide
/-- C24: beyond the end, Halted. -/
theorem test_jRel_halts : stepIs (machine ["J 100", "", ""] [] [] 0 []) (fun t => ctrIs t 100 1 0 && t.runState == .halted) = true := by
  decide
/-- C32: the exact-case table first. -/
theorem test_jLab_exact : stepIs (machine ["J loop"] [("LOOP", 2), ("loop", 5)] [("LOOP", 5)] 0 []) (fun t => ctrIs t 2 1 0) = true := by
  decide
/-- C33: then the uppercase table. -/
theorem test_jLab_upper : stepIs (machine ["J LOOP"] [("Loop", 2)] [("LOOP", 2)] 0 []) (fun t => ctrIs t 2 1 0) = true := by decide
/-- U2. -/
theorem test_unknown : stepIs (one "ADDI 1 1 5" [(1, 3)])
    (fun t => xIs t 1 3 && ctrIs t 1 1 0 && decide (t.diag = some { token := "ADDI".toList, pc := 0 })) = true := by decide
/-- U5. -/
theorem test_unknown_system : stepIs (one "ECALL" []) (fun t => ctrIs t 1 1 0 && t.runState == .running) = true := by decide
/-- U8, and the report of the step before is over. -/
theorem test_empty : stepIs { machine ["", "LI 1 5"] [] [] 0 [] with diag := some { token := "NOP".toList, pc := 7 } }
    (fun t => ctrIs t 1 0 0 && t.diag == none) = true := by decide

/-! ### The step, reset and the host -/

/-- S1, S2, S8: a step request while Faulted or Halted changes nothing. -/
theorem test_terminal : (stepIs { one "LI 1 1" [] with fault := { valid := true, code := 2, sub := 0, info := .token ['X'], fpc := 0 } }
      (fun t => xIs t 1 0 && ctrIs t 0 0 0) &&
    stepIs (machine ["LI 1 1"] [] [] 1 []) (fun t => xIs t 1 0 && ctrIs t 1 0 0) && stepIs State.reset (fun t => t == State.reset)) =
    true := by decide
/-- S3: reset leaves Faulted and keeps the program. -/
theorem test_reset : (State.resetMachine { one "JAL nowhere" [(1, 7)] with
      fault := { valid := true, code := 2, sub := 0, info := .token "NOWHERE".toList, fpc := 0 }, mem := [(3, 5)], ctrInstr := 4 }
    == one "JAL nowhere" []) = true := by decide
/-- 10_state.md R22: the host reads registers as signed integers. -/
theorem test_registers : (one "" [(1, -3), (31, 7)]).registers.take 3 = [0, -3, 0] := by decide
/-- The bytes of `LI 1 5`, the first character in the least significant byte. -/
theorem test_tableWord : (decodeTableWord 48 0x35203120494C == some (.li 1 5) && decodeTableWord 0 0 == some .empty &&
    decodeTableWord 8 0x80 == none) = true := by decide
theorem test_withFetchWord : stepIs (State.reset.withFetchWord 48 0x35203120494C) (fun t => xIs t 1 5 && ctrIs t 1 1 0) = true := by
  decide

/-! ### The loader -/

/-- What the loader makes of some lines. -/
def loads (lines prog : List String) (exact upperT : List (String × Nat)) : Bool :=
  decide (loadProgram '#' (lines.map String.toList) = some
    { prog := prog.map String.toList, lblExact := exact.map fun e => (e.1.toList, e.2),
      lblUpper := upperT.map fun e => (e.1.toList, e.2) })

/-- D1, D2. -/
theorem test_load_labels : (loads ["a: b: ADD 1 2 3"] ["b: ADD 1 2 3"] [("a", 0)] [("A", 0)] &&
    loads ["x : li 1 1", "j x"] ["li 1 1", "j x"] [("x ", 0)] [("X ", 0)]) = true := by decide
/-- D3, D7. -/
theorem test_load_quotes : (loads ["\"\"", "L: ''", "  # only comment", "", "'li 1 5'#c", "\"LI 2 6'"] ["", "", "li 1 5", "LI 2 6"]
      [("L", 1)] [("L", 1)] &&
    loads ["li 1 1 ,", "  ,  "] ["li 1 1 ,", ","] [] []) = true := by decide
/-- D4, D5, D6. -/
theorem test_load_tables : (loads ["A:", "B:", "LI 1 1", "C:"] ["LI 1 1"] [("A", 0), ("B", 0), ("C", 1)] [("A", 0), ("B", 0), ("C", 1)] &&
    loads ["lp: J 0", "LP: J 1", "Lp:"] ["J 0", "J 1"] [("lp", 0), ("LP", 1), ("Lp", 2)] [("LP", 2)] &&
    loads [":li 1 1"] ["li 1 1"] [("", 0)] [("", 0)]) = true := by decide
/-- D10. -/
theorem test_load_nonAscii : loadProgram '#' ["li 1 5 ; é".toList] = none := by decide

/-! ### Witnesses: concrete states and operands that meet the hypotheses of the statements -/

/-- A state of a run: after the unknown opcode at index 0, with a report, a bound, a stored word and a label. -/
def midRun : State :=
  { machine ["FROB", "SW 1 2(1)", "LI 0 5"] [("here", 1)] [("HERE", 1)] 1 [(1, 5)] with
    mem := [(3, 9)], ctrInstr := 1, ctrCycle := 1, ctrMem := 1, diag := some { token := "FROB".toList, pc := 0 }
    params := { memAddrBound := some 16, commentMarker := ';' } }

/-- A Faulted state. -/
def faulted : State :=
  { one "J X" [(1, 5)] with fault := { valid := true, code := 2, sub := 0, info := .token ['X'], fpc := 0 } }

theorem midRun_programInv : midRun.ProgramInv := ⟨by decide, by decide, by decide, by decide, by decide, by decide⟩

/-- ResetStateSatisfiesInv: a state with a program and labels that is not a reset state. -/
theorem witness_ResetStateSatisfiesInv : midRun.ProgramInv ∧ midRun.len = 3 ∧ midRun ≠ midRun.resetMachine :=
  ⟨midRun_programInv, by decide, by decide⟩

/-- HostReadsShowState: each run state, and a report. -/
theorem witness_HostReadsShowState : midRun.runState = .running ∧ State.reset.runState = .halted ∧
    faulted.runState = .faulted ∧ midRun.diag = some { token := "FROB".toList, pc := 0 } := by
  decide

/-- R29, R35: the status values 0, 1 and 2, the latch and the report on the ports. -/
theorem test_outputs : midRun.outputs.state = 0 ∧ State.reset.outputs.state = 1 ∧ faulted.outputs.state = 2 ∧
    faulted.outputs.faultCode = 2 ∧ faulted.outputs.faultInfo = .token ['X'] ∧ midRun.outputs.diagUnknown = true ∧
    midRun.outputs.diagToken = "FROB".toList ∧ faulted.outputs.diagUnknown = false := by
  decide

/-- StepKeepsInv: a state with a report, and the next state of its step. -/
theorem witness_StepKeepsInv : midRun.Inv ∧ ∃ t, step midRun = .next t ∧ decide (t.mem = [(3, 9), (7, 5)]) = true := by
  refine ⟨⟨by decide, by decide, by decide, by decide, by decide, midRun_programInv, by decide, by decide, ?_⟩,
    exists_next_of_nextIs (by decide)⟩
  intro r hr
  cases hr
  exact ⟨by decide, by decide⟩

/-- StepKeepsInv: a Faulted state. -/
theorem witness_StepKeepsInv_faulted : faulted.Inv ∧ ∃ t, step faulted = .next t ∧ decide (t = faulted) = true := by
  refine ⟨⟨by decide, by decide, by decide, by decide, by decide, ⟨by decide, by decide, by decide, by decide, by decide, by decide⟩,
    by decide, by decide, ?_⟩, exists_next_of_nextIs (by decide)⟩
  intro r hr
  cases hr

/-- LoadEstablishesInv. -/
theorem witness_LoadEstablishesInv : ∃ t, faulted.load ["A: LI 1 5".toList, "J A".toList] = some t ∧ t.len = 2 := ⟨_, rfl, rfl⟩

/-- RunStateFromPcAndLatch, ClockEdgeResetBeatsStep, StepRequestWhileNotRunning and OnlyResetLeavesTerminalStates: Halted and Faulted, with two edges without reset. -/
theorem witness_notRunning : State.reset.runState ≠ .running ∧ faulted.runState ≠ .running ∧
    ∀ e ∈ ([{ rst := false, stepReq := true }, { rst := false, stepReq := false }] : List EdgeInputs), e.rst = false := by
  refine ⟨by decide, by decide, fun e he => ?_⟩
  simp at he
  rcases he with rfl | rfl <;> rfl

/-- StepRunsDecodedInstruction: a string that decodes, and one that does not. -/
theorem witness_StepRunsDecodedInstruction :
    (midRun.runState = .running ∧ midRun.prog[midRun.pc]? = some "SW 1 2(1)".toList ∧
      decodesTo "SW 1 2(1)" (.sw 1 2 1) = true) ∧
    (one "LW 1 4" []).runState = .running ∧ (one "LW 1 4" []).prog[(one "LW 1 4" []).pc]? = some "LW 1 4".toList ∧
      decodeFault "LW 1 4" (.memSyntax ['4']) = true := by
  decide

/-- FaultEntryIsPrecise, with a report of the cycle before. -/
theorem witness_FaultEntryIsPrecise : ({ faulted with fault := .clear, diag := some { token := ['A'], pc := 9 } } : State).runState = .running ∧
    ∃ t, step { faulted with fault := .clear, diag := some { token := ['A'], pc := 9 } } = .next t ∧ t.fault.valid = true :=
  ⟨by decide, exists_next_of_nextIs (p := fun t => t.fault.valid) (by decide)⟩

/-- FaultLatchFollowsCauseTable: a step of a Running state whose latch is `code`, `sub`, and `info`. -/
def latches (s : State) (code sub : Nat) (info : FaultInfo) : Bool :=
  s.runState == .running && stepIs s fun t =>
    decide (t.fault = { valid := true, code := code, sub := sub, info := info, fpc := s.pc })

/-- FaultLatchFollowsCauseTable: sub-codes 1 to 6 of code 1 (A23, A25, A26, A22, A20, M16). -/
theorem witness_FaultLatch_decode : (latches (one "LI 1" []) 1 1 (.token "LI".toList) && latches (one "LI A 5" []) 1 2 (.token ['A']) &&
    latches (one "LI 99 X" []) 1 3 (.token "99".toList) && latches (one "LI 1 five" []) 1 4 (.token "FIVE".toList) &&
    latches (one "LI 1 2147483648" []) 1 5 (.token "2147483648".toList) && latches (one "LW 1 4" []) 1 6 (.token ['4'])) = true := by
  decide

/-- FaultLatchFollowsCauseTable: code 2 by each form (C4, C14, C26), and code 3 at its two boundaries (M10, and a bound of 16). -/
theorem witness_FaultLatch_execute : (latches (jumps "BEQ 0 0 nowhere" 0 []) 2 0 (.token "NOWHERE".toList) &&
    latches (jumps "JAL nowhere" 2 []) 2 0 (.token "NOWHERE".toList) &&
    latches (jumps "JAL 3 nowhere" 2 []) 2 0 (.token "NOWHERE".toList) && latches (jumps "J -1" 5 []) 2 0 (.token "-1".toList) &&
    latches (one "LW 1 -1(0)" []) 3 1 (.address (-1)) && latches (one "SW 1 -1(0)" []) 3 1 (.address (-1)) &&
    latches { midRun with prog := [[], "SW 1 11(1)".toList] } 3 2 (.address 16)) = true := by
  decide

/-- UnreachedTextNeverMatters: another slot of the same program. -/
theorem witness_UnreachedTextNeverMatters : (2 : Nat) ≠ midRun.pc ∧ ∃ t, step midRun = .next t ∧ decide (t.pc = 2) = true :=
  ⟨by decide, exists_next_of_nextIs (by decide)⟩

/-- StepDependsOnArchitecturalState: a Running state with a stale report and other latch contents. -/
theorem witness_StepDependsOnArchitecturalState :
    let s' : State := { midRun with fault := { valid := false, code := 3, sub := 1, info := .address (-1), fpc := 8 }, diag := none }
    midRun.runState = .running ∧ s'.runState = .running ∧ s' ≠ midRun ∧
      ({ s' with fault := midRun.fault, diag := midRun.diag } : State) = midRun := by
  decide

/-- RegisterZeroForced: register 0 holds 3 before, is named as destination, and is 0 after. -/
theorem witness_RegisterZeroForced : (Instr.li 0 5) ≠ .empty ∧
    ∃ t, exec (.li 0 5) (one "LI 0 5" [(0, 3)]) = .next t ∧ (t.ctrInstr == 1 && t.reg 0 == 0) = true :=
  ⟨by decide, exists_next_of_nextIs (p := fun t => t.ctrInstr == 1 && t.reg 0 == 0) (by decide)⟩

/-- RegisterZeroForced, second clause: the empty instruction leaves register 0 at 3. -/
theorem witness_RegisterZeroForced_empty : ∃ t, exec .empty (one "" [(0, 3)]) = .next t ∧ (t.reg 0 == 3) = true :=
  exists_next_of_nextIs (by decide)

/-- RegisterReadAndWriteSets: another register file that agrees on registers 1 and 2 alone. -/
theorem witness_RegisterReadAndWriteSets :
    let s := one "" [(1, 5), (2, 7), (4, 1)]
    let x' := (one "" [(1, 5), (2, 7), (3, 6), (9, 9)]).x
    (∃ t, exec (.add 3 1 2) s = .next t ∧ (t.ctrInstr == s.ctrInstr + 1) = true) ∧ x' ≠ s.x ∧
      (Instr.add 3 1 2).sources.all (fun r => x'.get r == s.reg r) = true ∧ (4 : Reg) ≠ 0 ∧
      (Instr.add 3 1 2).dest ≠ some 4 ∧ (Instr.add 3 1 2).dest = some 3 :=
  ⟨exists_next_of_nextIs (by decide), by decide, by decide, by decide, by decide, by decide⟩

/-- DataMemoryAccesses: a store, an ADD over another memory, a load over another memory with the same word at 7, a store over
another canonical memory, and a store whose address faults. -/
theorem witness_DataMemoryAccesses :
    (∃ t, exec (.sw 1 2 1) midRun = .next t ∧ (t.memWord 7 == 5 && t.memWord 3 == 9) = true) ∧
    (Instr.add 3 1 2).isMemory = false ∧ (∃ t, exec (.add 3 1 2) midRun = .next t ∧ (t.pc == 2) = true) ∧
    (midRun.effectiveAddress 2 1).toOption = some 7 ∧ Memory.read [(2, 4), (8, 8)] 7 = midRun.memWord 7 ∧
    (∃ t, exec (.lw 3 2 1) midRun = .next t ∧ (t.pc == 2) = true) ∧
    Memory.wf [(2, 4), (7, 8)] ∧ (midRun.effectiveAddress (-6) 1).toOption = none ∧
    ∃ t, exec (.sw 1 (-6) 1) midRun = .next t ∧ (t.fault.sub == 1) = true :=
  ⟨exists_next_of_nextIs (by decide), by decide, exists_next_of_nextIs (by decide), by decide, by decide,
    exists_next_of_nextIs (by decide), by decide, by decide, exists_next_of_nextIs (by decide)⟩

/-- An instruction runs without a fault to the given pc. -/
def runsTo (i : Instr) (s : State) (npc : Nat) : Bool := nextIs (exec i s) fun t => !t.fault.valid && t.pc == npc

/-- NextPcMultiplexer: every select of the multiplexer, with BEQ taken and not taken. -/
theorem witness_NextPcMultiplexer : (runsTo (.add 1 2 3) midRun 2 && runsTo (.sub 1 2 3) midRun 2 && runsTo (.li 1 2) midRun 2 &&
    runsTo (.lw 1 2 1) midRun 2 && runsTo (.sw 1 2 1) midRun 2 && runsTo (.unknown ['X']) midRun 2 && runsTo .empty midRun 2 &&
    runsTo (.jRel 7) midRun 8 && runsTo (.jRel 0) midRun 1 && runsTo (.jal "HERE".toList) midRun 1 &&
    runsTo (.jalRd 4 "HERE".toList) midRun 1 && runsTo (.jLab "HERE".toList) midRun 1 &&
    runsTo (.beq 2 3 "HERE".toList) midRun 1 && runsTo (.beq 1 2 "NO".toList) midRun 2) = true ∧
    midRun.reg 1 ≠ midRun.reg 2 := by
  decide

/-- TargetAtLenHalts: the four transfers to the index one past the end (C6), and a step that stays inside. -/
theorem witness_TargetAtLenHalts :
    let s (txt : String) := machine [txt, ""] [("end", 2)] [("END", 2)] 0 []
    (((["BEQ 0 0 end", "JAL end", "JAL 4 end", "J end"].map s).all fun s =>
        decide ((s.resolve "END".toList).toOption = some s.len) && s.runState == .running &&
          stepIs s fun t => !t.fault.valid && t.pc == 2) = true) ∧
    decodesTo "BEQ 0 0 end" (.beq 0 0 "END".toList) = true ∧ decodesTo "JAL end" (.jal "END".toList) = true ∧
    decodesTo "JAL 4 end" (.jalRd 4 "END".toList) = true ∧ decodesTo "J end" (.jLab "END".toList) = true ∧
    stepIs (s "LI 1 1") (fun t => !t.fault.valid && t.runState == .running) = true := by
  decide

/-- CountersOfOneStep: a counted load, an empty instruction and a fault. -/
theorem witness_CountersOfOneStep :
    ((one "LW 1 3(0)" []).runState = .running ∧ stepIs (one "LW 1 3(0)" []) (fun t => !t.fault.valid && ctrIs t 1 1 1) = true ∧
      decodesTo "LW 1 3(0)" (.lw 1 3 0) = true) ∧
    ((one "" []).runState = .running ∧ stepIs (one "" []) (fun t => !t.fault.valid && ctrIs t 1 0 0) = true ∧
      decodesTo "" .empty = true) ∧
    (one "LW 1 -3(0)" []).runState = .running ∧ stepIs (one "LW 1 -3(0)" []) (fun t => t.fault.valid && ctrIs t 0 0 0) = true := by
  decide

/-- ReadsSeeLatestStore, StoreThenLoad and SwStoresWord: a canonical memory that is not empty, and an address below the bound. -/
theorem witness_canonicalMemory : Memory.wf midRun.mem ∧ midRun.mem ≠ [] ∧ midRun.reg 0 = 0 ∧ (3 : Reg) ≠ 0 ∧
    (midRun.effectiveAddress 10 1).toOption = some 15 ∧ State.latestStore 1 midRun 7 = some 5 := by
  decide

/-- SelfLoopsRunForever: the three self-loops (C22, C29, C7). -/
theorem witness_SelfLoopsRunForever :
    let s (txt : String) := machine [txt] [("L", 0)] [("L", 0)] 0 []
    ((["J 0", "J L", "BEQ 0 1 L"].map s).all fun s =>
      s.runState == .running && decide ((s.resolve ['L']).toOption = some s.pc) && decide (s.reg 0 = 0) &&
        decide (s.reg 0 = s.reg 1) && s.diag == none) = true ∧
    decodesTo "J 0" (.jRel 0) = true ∧ decodesTo "J L" (.jLab ['L']) = true ∧ decodesTo "BEQ 0 1 L" (.beq 0 1 ['L']) = true := by
  decide

/-- ReportOfUnknownOpcode: a step with a report, and one that ends the report before. -/
theorem witness_ReportOfUnknownOpcode :
    (∃ t, step (one "frob 1" []) = .next t ∧ (t.diag == some { token := "FROB".toList, pc := 0 }) = true) ∧
    ∃ t, step midRun = .next t ∧ (t.diag == none) = true :=
  ⟨exists_next_of_nextIs (by decide), exists_next_of_nextIs (by decide)⟩

/-- The operand-count clauses of the ten recognised forms. -/
theorem witness_operandCounts : ([[]] : List Text).length ≠ 3 ∧ ([[], []] : List Text).length ≠ 3 ∧
    ([[], [], [], []] : List Text).length ≠ 3 ∧ ([] : List Text).length ≠ 1 ∧ ([] : List Text).length ≠ 2 ∧
    ([[], [], []] : List Text).length ≠ 2 ∧ ([[], [], []] : List Text).length ≠ 1 := by
  decide

/-- LiLoadsImmediate: both ends of the range. -/
theorem witness_LiLoadsImmediate : (1 : Reg) ≠ 0 ∧ -2147483648 ≤ (-2147483648 : Int) ∧ (-2147483648 : Int) ≤ 2147483647 ∧
    -2147483648 ≤ (2147483647 : Int) ∧ (2147483647 : Int) ≤ 2147483647 := by
  decide

/-- The fatal condition of an effective address, if there is one. -/
def addressFault (s : State) (off : Int) (base : Reg) : Option FatalCause :=
  match s.effectiveAddress off base with
  | .ok _ => none
  | .error c => some c

/-- EffectiveAddressIsExact, LwLoadsWord and SwStoresWord: addresses -1, 0, 15 and 16 with the bound 16 (register 1 holds 5). -/
theorem witness_EffectiveAddressIsExact : (midRun.reg 1).toInt = 5 ∧ midRun.params.memAddrBound = some 16 ∧
    addressFault midRun (-6) 1 = some (.negativeAddress (-1)) ∧ (midRun.effectiveAddress (-5) 1).toOption = some 0 ∧
    (midRun.effectiveAddress 10 1).toOption = some 15 ∧ addressFault midRun 11 1 = some (.addressAboveBound 16) ∧
    (∀ b, midRun.params.memAddrBound = some b → 15 < b) ∧ (∀ b, State.reset.params.memAddrBound = some b → 15 < b) := by
  refine ⟨by decide, by decide, by decide, by decide, by decide, by decide, ?_, ?_⟩
  · intro b hb; cases hb; decide
  · intro b hb; cases hb

/-- BeqBranchesWhenEqual: equal with a label (C1), equal without (C4), unequal (C3). -/
theorem witness_BeqBranchesWhenEqual :
    (let s := jumps "" 2 [(3, 10), (5, 10)]; s.reg 3 = s.reg 5 ∧ (s.resolve "DONE".toList).toOption = some 7) ∧
    (let s := jumps "" 0 []; s.reg 0 = s.reg 0 ∧ (s.resolve "NOWHERE".toList).toOption = none) ∧
    (let s := jumps "" 0 [(2, 1)]; s.reg 1 ≠ s.reg 2) := by
  decide

/-- JalLinksRegisterOne, JalRdLinksNamedRegister and JumpLabelResolves: a name in a table, and one in neither. -/
theorem witness_resolve : ((jumps "" 2 []).resolve ['L']).toOption = some 4 ∧ ((jumps "" 2 []).resolve ['l']).toOption = some 4 ∧
    ((jumps "" 2 []).resolve "NOWHERE".toList).toOption = none := by
  decide

/-- JumpRelativeAddsLiteral and JumpLabelResolves: `007` is a digit string, `+1` is none. -/
theorem witness_digitStrings : DigitString "007".toList ∧ ¬ DigitString "+1".toList := by
  refine ⟨⟨by decide, ?_⟩, fun h => absurd (h.2 '+' (by decide)) (by decide)⟩
  intro c hc
  simp at hc
  rcases hc with rfl | rfl <;> decide

/-- UnknownOpcodeIsCountedNoOp: an opcode that is none of the eight, although it begins like one (T16). -/
theorem witness_UnknownOpcode : "ADD1".toList ∉ ["ADD".toList, "SUB".toList, "LI".toList, "LW".toList, "SW".toList, "BEQ".toList,
    "JAL".toList, "J".toList] := by
  decide

/-- ResolveExactThenUppercase: its clauses on the tables of C32, with a label one past the end. -/
theorem witness_ResolveExactThenUppercase :
    let s := machine (List.replicate 6 "J loop") [("LOOP", 2), ("loop", 5)] [("LOOP", 5), ("END", 6)] 0 []
    s.lblExact.distinct ∧ s.lblUpper.distinct ∧ ("LOOP".toList, 2) ∈ s.lblExact ∧
      "end".toList ∉ s.lblExact.map Prod.fst ∧ (upper "end".toList, 6) ∈ s.lblUpper ∧
      "NO".toList ∉ s.lblExact.map Prod.fst ∧ upper "NO".toList ∉ s.lblUpper.map Prod.fst ∧
      s.lblExact.within s.len ∧ s.lblUpper.within s.len ∧ (s.resolve "END".toList).toOption = some s.len := by
  decide

/-- LinkValueIsNextIndex and ArithmeticWraps. -/
theorem witness_LinkValueIsNextIndex : midRun.ProgramInv ∧ midRun.pc < midRun.len ∧ (9 : Reg) ≠ 0 ∧
    (midRun.resolve "HERE".toList).toOption = some 1 :=
  ⟨midRun_programInv, by decide, by decide, by decide⟩

/-- RegisterOperandGrammar: 31, 32 and a token that is no digit string. -/
theorem witness_RegisterOperandGrammar : digitsNumber "31".toList = (31 : Reg).val ∧ 31 < digitsNumber "32".toList ∧
    DigitString "31".toList ∧ DigitString "32".toList ∧ ¬ DigitString "X1".toList := by
  refine ⟨by decide, by decide, ⟨by decide, ?_⟩, ⟨by decide, ?_⟩, fun h => absurd (h.2 'X' (by decide)) (by decide)⟩ <;>
  · intro c hc
    simp at hc
    rcases hc with rfl | rfl <;> decide

/-- IntegerOperandGrammar: the ends of the range and the integers next to them. -/
theorem witness_IntegerOperandGrammar : (digitsNumber "2147483647".toList : Int) = 2147483647 ∧
    (2147483647 : Int) < digitsNumber "2147483648".toList ∧ -(digitsNumber "2147483648".toList : Int) = -2147483648 ∧
    -(digitsNumber "2147483649".toList : Int) < -2147483648 ∧ (¬ ∃ ds, DigitString ds ∧
      (['-'] = ds ∨ ['-'] = '+' :: ds ∨ ['-'] = '-' :: ds)) := by
  refine ⟨by decide, by decide, by decide, by decide, ?_⟩
  rintro ⟨ds, hd, rfl | h | h⟩
  · exact absurd (hd.2 '-' (by decide)) (by decide)
  · cases h
  · cases h; exact hd.1 rfl

/-- MemoryOperandGrammar: `(2)`, and a token of another shape. -/
theorem witness_MemoryOperandGrammar : (ParenFree [] ∧ ParenFree ['2'] ∧ "(2)".toList = [] ++ '(' :: (['2'] ++ [')'])) ∧
    ¬ ∃ p q, ParenFree p ∧ ParenFree q ∧ ['4'] = p ++ '(' :: (q ++ [')']) := by
  refine ⟨by simp [ParenFree], ?_⟩
  rintro ⟨p, q, -, -, h⟩
  have : '(' ∈ ['4'] := by rw [h]; simp
  exact absurd this (by decide)

/-- EncodeDecodeRoundTrip: well-formed instructions at the ends of their operands. -/
theorem witness_EncodeDecodeRoundTrip : (Instr.lw 31 (-2147483648) 0).wellFormed = true ∧ (Instr.jLab "+1".toList).wellFormed = true ∧
    (Instr.unknown ".WORD".toList).wellFormed = true ∧ (Instr.jalRd 0 "5(".toList).wellFormed = true := by
  decide

/-- DecodedIsWellFormed. -/
theorem witness_DecodedIsWellFormed : ("jal 9, loop".toList.all fun c => decide (c.toNat < 128)) = true ∧
    decodesTo "jal 9, loop" (.jalRd 9 "LOOP".toList) = true := by
  decide

/-- TokensAreMaximalRuns: `,ADD,1,,2` written as separators and runs. -/
theorem witness_TokensAreMaximalRuns : AllSeparators [','] ∧ upper ",add,1,,2".toList = [','] ++
    (([("ADD".toList, [',']), (['1'], [',', ',']), (['2'], [])] : List (Text × Text)).map fun p => p.1 ++ p.2).flatten ∧
    (([("ADD".toList, [',']), (['1'], [',', ',']), (['2'], [])] : List (Text × Text)).dropLast.all fun p => !p.2.isEmpty) = true ∧
    (([("ADD".toList, [',']), (['1'], [',', ',']), (['2'], [])] : List (Text × Text)).all fun p =>
      !p.1.isEmpty && p.1.all (fun c => !isSeparator c) && p.2.all isSeparator) = true := by
  refine ⟨?_, by decide, by decide, by decide⟩
  intro c hc
  simp at hc
  subst hc
  decide

/-- DecodeSeesTokensOnly: a space and a comma with a tab. -/
theorem witness_DecodeSeesTokensOnly : AllSeparators [' '] ∧ AllSeparators [',', '\t'] := by
  refine ⟨fun c hc => ?_, fun c hc => ?_⟩
  · simp at hc; subst hc; decide
  · simp at hc; rcases hc with rfl | rfl <;> decide

/-- TextPrimitives: a letter and a character that is none, a body between whitespace, and a character found. -/
theorem witness_TextPrimitives : ('a' ≤ 'z' ∧ 'z' ≤ 'z') ∧ ¬ ('a' ≤ '[' ∧ '[' ≤ 'z') ∧ isWhitespace '\x0b' = true ∧
    trim "\t li 1 ,\n".toList = "li 1 ,".toList ∧ ':' ∉ "x ".toList ∧ "x : y:".toList = "x ".toList ++ ':' :: " y:".toList := by
  decide

/-- LoaderLineForms: a labelled line with outer whitespace, a gap and a comment; a blank line with a comment. -/
theorem witness_LoaderLineForms : (("  ".toList ++ "\t".toList).all isWhitespace) = true ∧
    '#' ∉ "  ".toList ++ "L: J 1".toList ++ "\t".toList ∧ "# c # d".toList.head? = some '#' ∧
    isWhitespace 'L' = false ∧ isWhitespace '1' = false ∧ ':' ∉ "L".toList ∧ isWhitespace ' ' = true ∧
    "L: J 1".toList = "L".toList ++ ':' :: (" ".toList ++ 'J' :: " 1".toList) ∧
    "  L: J 1\t# c # d".toList = "  ".toList ++ "L: J 1".toList ++ "\t".toList ++ "# c # d".toList ∧
    ':' ∉ "J 1".toList ∧ "L:".toList = "L".toList ++ [':'] := by
  decide

/-- LaterBindingWins: another name in each table. -/
theorem witness_LaterBindingWins : "LOOP".toList ≠ "loop".toList ∧ "END".toList ≠ upper "loop".toList := by decide

/-- UnquoteStripsQuotes: mixed quotes around a body with a quote inside. -/
theorem witness_UnquoteStripsQuotes : (("\"'".toList ++ "'".toList).all fun c => decide (c = '"' ∨ c = '\'')) = true ∧
    "a'b".toList.head? = some 'a' ∧ "a'b".toList.getLast? = some 'b' ∧ unquote "\"'a'b'".toList = "a'b".toList := by
  decide

end Sys2Proof.Tests
end

section
/-! PROOFS. The text primitives of 00_scope.md R11. -/

namespace Sys2Proof

/-- `upperChar` tests codes where R11 names the letters `a`..`z`. -/
theorem lowercase_iff_toNat (c : Char) : 'a' ≤ c ∧ c ≤ 'z' ↔ 97 ≤ c.toNat ∧ c.toNat ≤ 122 := Iff.rfl

theorem toNat_upperChar_of_lowercase {c : Char} (h : 'a' ≤ c ∧ c ≤ 'z') : (upperChar c).toNat = c.toNat - 32 := by
  rw [toNat_upperChar, if_pos ((lowercase_iff_toNat c).1 h)]

theorem upperChar_eq_self_of_not_lowercase {c : Char} (h : ¬ ('a' ≤ c ∧ c ≤ 'z')) : upperChar c = c :=
  upperChar_eq_self (mt (lowercase_iff_toNat c).2 h)

@[simp] theorem length_upper (s : Text) : (upper s).length = s.length := List.length_map upperChar

@[simp] theorem getElem?_upper (s : Text) (k : Nat) : (upper s)[k]? = s[k]?.map upperChar := List.getElem?_map

theorem isWhitespace_iff_mem_codes (c : Char) :
    isWhitespace c = true ↔ c.toNat ∈ [0x20, 0x09, 0x0A, 0x0B, 0x0C, 0x0D] := by
  simp [isWhitespace_iff]

/-- Settles O46: each primitive by the lemma that says once what it does; whitespace by code, `trim` as a
`stripBoth`, and `find` by induction on the text before the first occurrence. -/
theorem textPrimitives : Obligations.TextPrimitives := by
  unfold Obligations.TextPrimitives
  refine ⟨fun c => ⟨toNat_upperChar_of_lowercase, upperChar_eq_self_of_not_lowercase⟩,
    fun txt => ⟨length_upper txt, getElem?_upper txt⟩, isWhitespace_iff_mem_codes, isSeparator_iff,
    fun w body w' hw hbody => stripBoth_eq hw hbody, fun c txt => ⟨splitFirst_none, ?_⟩⟩
  rintro before rest hbefore rfl
  exact splitFirst_append hbefore rest

end Sys2Proof
end

section
/-! PROOFS. What a step keeps over runs and clock edges: the read-only inputs, and every state that is not Running
(10_state.md R26, R30, R31, R37; 60_exceptions.md R189). -/

namespace Sys2Proof.Machine

/-! ### The read-only inputs over a run -/

theorem State.InputsKept.refl (s : State) : s.InputsKept s := ⟨rfl, rfl, rfl, rfl⟩

theorem State.InputsKept.trans {s t u : State} (hst : s.InputsKept t) (htu : t.InputsKept u) : s.InputsKept u := by
  obtain ⟨hprog, hexact, hupper, hparams⟩ := hst
  obtain ⟨hprog', hexact', hupper', hparams'⟩ := htu
  exact ⟨hprog'.trans hprog, hexact'.trans hexact, hupper'.trans hupper, hparams'.trans hparams⟩

theorem step_eq_next_after (s : State) : step s = .next s.after := by
  obtain ⟨t, ht⟩ := step_total s
  rw [after_eq s ht, ht]

theorem State.inputsKept_after (s : State) : s.InputsKept s.after := step_inputs s (step_eq_next_after s)

/-- Settles O18, by induction on the number of steps. -/
theorem readOnlyInputsNeverChange : Obligations.ReadOnlyInputsNeverChange := by
  unfold Obligations.ReadOnlyInputsNeverChange
  intro k
  induction k with
  | zero => exact State.InputsKept.refl
  | succ k ih => exact fun s => s.inputsKept_after.trans (ih s.after)

/-! ### The run state -/

theorem State.runState_halted (s : State) : s.runState = .halted ↔ s.fault.valid = false ∧ s.prog.length ≤ s.pc := by
  unfold State.runState State.len
  split
  next hvalid => simp [hvalid]
  next hvalid =>
    split
    next hlt => simp [hlt]
    next hge => simp [hvalid, Nat.le_of_not_lt hge]

theorem State.runState_faulted (s : State) : s.runState = .faulted ↔ s.fault.valid = true := by
  unfold State.runState
  split
  next hvalid => simp [hvalid]
  next hvalid => split <;> simp [hvalid]

@[simp] theorem State.runState_endReport (s : State) : s.endReport.runState = s.runState := rfl

@[simp] theorem State.endReport_endReport (s : State) : s.endReport.endReport = s.endReport := rfl

@[simp] theorem State.resetMachine_endReport (s : State) : s.endReport.resetMachine = s.resetMachine := rfl

theorem State.runState_resetMachine (s : State) :
    s.resetMachine.runState = if 0 < s.prog.length then .running else .halted := rfl

/-- Settles O8: such a step only ends the report. -/
theorem stepRequestWhileNotRunning : Obligations.StepRequestWhileNotRunning := by
  unfold Obligations.StepRequestWhileNotRunning
  exact fun s hstop => step_not_running s hstop

theorem State.after_not_running {s : State} (hstop : s.runState ≠ .running) : s.after = s.endReport :=
  after_eq s (step_not_running s hstop)

theorem State.runState_afterSteps_not_running (k : Nat) :
    ∀ {s : State}, s.runState ≠ .running → (State.afterSteps k s).runState = s.runState := by
  induction k with
  | zero => exact fun _ => rfl
  | succ k ih =>
    intro s hstop
    rw [State.afterSteps, State.after_not_running hstop, ih (s := s.endReport) hstop, State.runState_endReport]

/-- Settles O10: the three readings of `runState`, and an induction on the number of steps. -/
theorem runStateFromPcAndLatch : Obligations.RunStateFromPcAndLatch := by
  unfold Obligations.RunStateFromPcAndLatch
  exact fun s => ⟨s.runState_running, s.runState_halted, s.runState_faulted,
    fun hstop k => State.runState_afterSteps_not_running k hstop, s.runState_resetMachine⟩

/-! ### Clock edges -/

theorem State.clockEdge_not_running {s : State} {e : EdgeInputs} (hstop : s.runState ≠ .running) (hrst : e.rst = false) :
    s.clockEdge e = .next s.endReport := by
  unfold State.clockEdge
  cases hreq : e.stepReq <;> simp [hrst, step_not_running s hstop]

/-- Where no clock edge resets, the report is all that ends in a block that is not Running. -/
theorem State.endReport_afterEdges {es : List EdgeInputs} (hrst : ∀ e ∈ es, e.rst = false) :
    ∀ {s : State}, s.runState ≠ .running → (State.afterEdges es s).endReport = s.endReport := by
  induction es with
  | nil => exact fun _ => rfl
  | cons e es ih =>
    intro s hstop
    obtain ⟨he, hes⟩ := List.forall_mem_cons.1 hrst
    simpa [State.afterEdges, State.clockEdge_not_running hstop he] using ih hes (s := s.endReport) hstop

theorem State.clockEdge_total (s : State) (e : EdgeInputs) : ∃ t, s.clockEdge e = .next t := by
  unfold State.clockEdge
  split
  · exact ⟨_, rfl⟩
  · split
    · exact step_total s
    · exact ⟨_, rfl⟩

theorem State.afterEdges_append (es fs : List EdgeInputs) :
    ∀ s : State, State.afterEdges (es ++ fs) s = State.afterEdges fs (State.afterEdges es s) := by
  induction es with
  | nil => exact fun _ => rfl
  | cons e es ih =>
    intro s
    obtain ⟨t, ht⟩ := s.clockEdge_total e
    simp [State.afterEdges, ht, ih t]

/-- Settles O9: edges without reset end the report and do nothing else, and reset does not look at the report. -/
theorem onlyResetLeavesTerminalStates : Obligations.OnlyResetLeavesTerminalStates := by
  unfold Obligations.OnlyResetLeavesTerminalStates
  intro s es hstop hrst
  have hkept : (State.afterEdges es s).endReport = s.endReport := State.endReport_afterEdges hrst hstop
  refine ⟨hkept, fun req => ?_⟩
  calc State.afterEdges (es ++ [{ rst := true, stepReq := req }]) s
      = State.afterEdges [{ rst := true, stepReq := req }] (State.afterEdges es s) := State.afterEdges_append _ _ s
    _ = (State.afterEdges es s).resetMachine := rfl
    _ = (State.afterEdges es s).endReport.resetMachine := (State.resetMachine_endReport _).symm
    _ = s.endReport.resetMachine := by rw [hkept]
    _ = s.resetMachine := s.resetMachine_endReport

end Sys2Proof.Machine
end

section
/-! PROOFS. The registers an instruction writes and reads (10_state.md R22). -/

namespace Sys2Proof.Machine

/-! ### The write set -/

theorem State.reg_commit_of_ne_dest {s : State} {i : Instr} {e : Effect} (he : effectOf i s = .ok e) {r : Reg}
    (hr : r ≠ 0) (hdest : i.dest ≠ some r) : (s.commit e).reg r = s.reg r := by
  rw [← effectOf_wr s he] at hdest
  rw [State.reg_commit, if_neg hr]
  cases hwr : e.wr with
  | none => rfl
  | some w => exact if_neg fun heq => hdest (by simp [hwr, heq])

theorem exec_keeps_other_registers {i : Instr} {s t : State} (h : exec i s = .next t) {r : Reg} (hr : r ≠ 0)
    (hdest : i.dest ≠ some r) : t.reg r = s.reg r := by
  rcases exec_next s h with ⟨-, rfl⟩ | ⟨-, e, he, rfl⟩ | ⟨-, c, -, rfl⟩
  · rfl
  · exact State.reg_commit_of_ne_dest he hr hdest
  · rfl

/-- What a commit leaves in the register it writes depends on the effect alone. -/
theorem State.reg_commit_dest {i : Instr} {s : State} {e : Effect} (he : effectOf i s = .ok e) {r : Reg}
    (hdest : i.dest = some r) (s' : State) : (s'.commit e).reg r = (s.commit e).reg r := by
  rw [← effectOf_wr s he] at hdest
  obtain ⟨⟨rd, v⟩, hwr, rfl⟩ := Option.map_eq_some_iff.1 hdest
  simp [State.reg_commit, hwr]

/-! ### The read set: another register file -/

/-- `s` over the register file `x'`. -/
def State.withRegs (s : State) (x' : Vector Word 32) : State := { s with x := x' }

@[simp] theorem State.reg_withRegs (s : State) (x' : Vector Word 32) (r : Reg) : (s.withRegs x').reg r = x'.get r := rfl

@[simp] theorem State.resolve_withRegs (s : State) (x' : Vector Word 32) (lab : Text) :
    (s.withRegs x').resolve lab = s.resolve lab := rfl

theorem State.effectiveAddress_withRegs {s : State} {x' : Vector Word 32} {base : Reg} (off : Int)
    (hbase : x'.get base = s.reg base) : (s.withRegs x').effectiveAddress off base = s.effectiveAddress off base :=
  State.effectiveAddress_congr off hbase rfl

/-- The effect of an instruction depends on its source registers alone among the registers. -/
theorem effectOf_withRegs {i : Instr} {s : State} {x' : Vector Word 32} (h : ∀ r ∈ i.sources, x'.get r = s.reg r) :
    effectOf i (s.withRegs x') = effectOf i s := by
  cases i with
  | add rd rs1 rs2 | sub rd rs1 rs2 | beq rs1 rs2 lab =>
    have hrs1 : x'.get rs1 = s.reg rs1 := h rs1 (by simp [Instr.sources])
    have hrs2 : x'.get rs2 = s.reg rs2 := h rs2 (by simp [Instr.sources])
    simp only [effectOf, State.reg_withRegs, State.resolve_withRegs, hrs1, hrs2]
    rfl
  | lw rd off base =>
    have hbase : x'.get base = s.reg base := h base (by simp [Instr.sources])
    simp only [effectOf, State.effectiveAddress_withRegs off hbase]
    rfl
  | sw rs2 off base =>
    have hrs2 : x'.get rs2 = s.reg rs2 := h rs2 (by simp [Instr.sources])
    have hbase : x'.get base = s.reg base := h base (by simp [Instr.sources])
    simp only [effectOf, State.reg_withRegs, State.effectiveAddress_withRegs off hbase, hrs2]
    rfl
  | _ => rfl

/-- Outside the register file, a commit does not look at it. -/
theorem State.withRegs_commit_withRegs (s : State) (x' : Vector Word 32) (e : Effect) :
    ((s.withRegs x').commit e).withRegs (s.commit e).x = s.commit e := by
  obtain ⟨_ | _, _ | _, _, _, _ | _⟩ := e <;> rfl

/-- Over another register file that agrees on the sources, an instruction answers the same state but for the register
file, and leaves the same value in its destination unless it faults. -/
theorem exec_withRegs {i : Instr} {s t : State} {x' : Vector Word 32} (h : exec i s = .next t)
    (hsources : ∀ r ∈ i.sources, x'.get r = s.reg r) :
    ∃ t', exec i (s.withRegs x') = .next t' ∧ t'.withRegs t.x = t ∧
      (t.ctrInstr = s.ctrInstr + 1 → ∀ r, i.dest = some r → t'.reg r = t.reg r) := by
  rcases exec_next s h with ⟨rfl, rfl⟩ | ⟨hi, e, he, rfl⟩ | ⟨hi, c, hc, rfl⟩
  · exact ⟨_, exec_empty _, rfl, fun _ r hdest => by simp [Instr.dest] at hdest⟩
  · exact ⟨_, exec_of_effect _ hi ((effectOf_withRegs hsources).trans he), s.withRegs_commit_withRegs x' e,
      fun _ r hdest => State.reg_commit_dest he hdest _⟩
  · exact ⟨_, exec_of_cause _ hi ((effectOf_withRegs hsources).trans hc), rfl, fun hcount => by simp at hcount⟩

/-- Settles O20: the write set is the destination of the effect, and the effect reads the sources alone. -/
theorem registerReadAndWriteSets : Obligations.RegisterReadAndWriteSets := by
  unfold Obligations.RegisterReadAndWriteSets
  exact fun i s t x' h => ⟨fun r hr hdest => exec_keeps_other_registers h hr hdest, exec_withRegs h⟩

end Sys2Proof.Machine
end

section
/-! PROOFS. The host's reads and the output ports (10_state.md R22, R28, R29, R35, R36). -/

namespace Sys2Proof.Machine

theorem State.length_registers (s : State) : s.registers.length = 32 := by simp [State.registers]

theorem State.getElem?_registers (s : State) (r : Reg) : s.registers[r.val]? = some (s.reg r).toInt := by
  simp [State.registers, State.reg, Vector.get_eq_getElem, r.isLt]

theorem State.outputs_state (s : State) : s.outputs.state = s.runState.encoding := rfl

theorem State.outputs_diagUnknown (s : State) : s.outputs.diagUnknown = true ↔ s.diag ≠ none :=
  Option.isSome_iff_ne_none

theorem State.outputs_report {s : State} {r : Report} (h : s.diag = some r) :
    s.outputs.diagToken = r.token ∧ s.outputs.diagPc = r.pc := by
  simp [State.outputs, h]

/-- Settles O11: the register snapshot, the encoding of the run state and the report; every other read is its field. -/
theorem hostReadsShowState : Obligations.HostReadsShowState := by
  unfold Obligations.HostReadsShowState
  intro s
  exact ⟨s.length_registers, s.getElem?_registers, rfl, rfl, rfl, fun _ => rfl,
    fun hrun => by rw [s.outputs_state, hrun]; rfl, fun hrun => by rw [s.outputs_state, hrun]; rfl,
    fun hrun => by rw [s.outputs_state, hrun]; rfl, rfl, rfl, rfl, rfl, rfl, rfl,
    s.outputs_diagUnknown, fun _ => State.outputs_report, rfl, fun _ => rfl⟩

end Sys2Proof.Machine
end

section
/-! PROOFS. The effective address (20_memory.md R57). -/

namespace Sys2Proof.Machine

theorem Config.atOrAboveBound_eq_true {p : Config} {ea : Int} :
    Config.atOrAboveBound p ea = true ↔ ∃ b : Nat, p.memAddrBound = some b ∧ (b : Int) ≤ ea := by
  unfold Config.atOrAboveBound
  cases p.memAddrBound <;> simp

theorem State.effectiveAddress_negative {s : State} {off : Int} {base : Reg} (hneg : s.addressSum off base < 0) :
    s.effectiveAddress off base = .error (.negativeAddress (s.addressSum off base)) := if_pos hneg

theorem State.effectiveAddress_aboveBound {s : State} {off : Int} {base : Reg} (hnonneg : 0 ≤ s.addressSum off base)
    (habove : Config.atOrAboveBound s.params (s.addressSum off base) = true) :
    s.effectiveAddress off base = .error (.addressAboveBound (s.addressSum off base)) := by
  rw [State.effectiveAddress, if_neg (Int.not_lt.2 hnonneg), if_pos habove]

theorem State.effectiveAddress_inRange {s : State} {off : Int} {base : Reg} {a : Nat}
    (ha : (a : Int) = s.addressSum off base) (hbelow : ∀ b, s.params.memAddrBound = some b → a < b) :
    s.effectiveAddress off base = .ok a := by
  have hbound : ¬ Config.atOrAboveBound s.params a = true := by
    rw [Config.atOrAboveBound_eq_true]
    rintro ⟨b, hb, hle⟩
    exact Nat.not_le.2 (hbelow b hb) (Int.ofNat_le.1 hle)
  rw [State.effectiveAddress, ← ha, if_neg (Int.not_lt.2 (Int.natCast_nonneg a)), if_neg hbound, Int.toNat_natCast]

/-- Settles O42: the three ranges of the exact sum, each by its lemma. -/
theorem effectiveAddressIsExact : Obligations.EffectiveAddressIsExact := by
  unfold Obligations.EffectiveAddressIsExact
  exact fun s off base => ⟨State.effectiveAddress_negative,
    fun b hnonneg hb hle => State.effectiveAddress_aboveBound hnonneg (Config.atOrAboveBound_eq_true.2 ⟨b, hb, hle⟩),
    fun a ha hbelow => State.effectiveAddress_inRange ha hbelow⟩

end Sys2Proof.Machine
end

section
/-! PROOFS. What an instruction does to data memory and sees of it (20_memory.md R56). -/

namespace Sys2Proof.Machine

/-! ### The store of an instruction -/

/-- The store an instruction makes, address and value: only SW makes one, unless its address faults. -/
def storeBy (i : Instr) (s : State) : Option (Nat × Word) :=
  match i with
  | .sw rs2 off base => (s.effectiveAddress off base).toOption.map fun a => (a, s.reg rs2)
  | _ => none

theorem storeBy_sw {s : State} {off : Int} {base : Reg} {a : Nat} (rs2 : Reg) (ha : s.effectiveAddress off base = .ok a) :
    storeBy (.sw rs2 off base) s = some (a, s.reg rs2) := by
  rw [storeBy, ha]; rfl

theorem storeBy_sw_fault {s : State} {off : Int} {base : Reg} {c : FatalCause} (rs2 : Reg)
    (hc : s.effectiveAddress off base = .error c) : storeBy (.sw rs2 off base) s = none := by
  rw [storeBy, hc]; rfl

theorem storeBy_cases (i : Instr) (s : State) :
    storeBy i s = none ∨ ∃ rs2 off base a, i = .sw rs2 off base ∧ s.effectiveAddress off base = .ok a ∧
      storeBy i s = some (a, s.reg rs2) := by
  cases i with
  | sw rs2 off base =>
    cases ha : s.effectiveAddress off base with
    | error c => exact .inl (storeBy_sw_fault rs2 ha)
    | ok a => exact .inr ⟨rs2, off, base, a, rfl, ha, storeBy_sw rs2 ha⟩
  | _ => exact .inl rfl

theorem storeBy_of_not_memory {i : Instr} (h : i.isMemory = false) (s : State) : storeBy i s = none := by
  cases i with
  | sw rs2 off base => simp [Instr.isMemory] at h
  | _ => rfl

@[simp] theorem storeBy_endReport (i : Instr) (s : State) : storeBy i s.endReport = storeBy i s := by cases i <;> rfl

theorem effectOf_sw {s : State} {off : Int} {base : Reg} {a : Nat} (rs2 : Reg) (ha : s.effectiveAddress off base = .ok a) :
    effectOf (.sw rs2 off base) s = .ok { mw := some (a, s.reg rs2), npc := s.pc + 1, memAccess := 1 } := by
  rw [effectOf, ha]; rfl

/-- The memory write of a completing instruction is its store. -/
theorem effectOf_mw_eq_storeBy {i : Instr} {s : State} {e : Effect} (he : effectOf i s = .ok e) :
    e.mw = storeBy i s := by
  rcases storeBy_cases i s with hnone | ⟨rs2, off, base, a, rfl, ha, hsome⟩
  · rcases effectOf_mw s he with hmw | ⟨rs2, off, base, a, rfl, ha, -⟩
    · rw [hmw, hnone]
    · rw [storeBy_sw rs2 ha] at hnone; cases hnone
  · rw [effectOf_sw rs2 ha] at he; cases he; exact hsome.symm

/-- An instruction that faults makes no store. -/
theorem storeBy_of_cause {i : Instr} {s : State} {c : FatalCause} (hc : effectOf i s = .error c) : storeBy i s = none := by
  rcases storeBy_cases i s with hnone | ⟨rs2, off, base, a, rfl, ha, -⟩
  · exact hnone
  · rw [effectOf_sw rs2 ha] at hc; cases hc

/-- An instruction changes data memory by its store and by nothing else. -/
theorem exec_mem {i : Instr} {s t : State} (h : exec i s = .next t) : t.mem = (s.commitMem (storeBy i s)).mem := by
  rcases exec_next s h with ⟨rfl, rfl⟩ | ⟨-, e, he, rfl⟩ | ⟨-, c, hc, rfl⟩
  · rfl
  · rw [State.commit_mem, effectOf_mw_eq_storeBy he]
  · rw [storeBy_of_cause hc]; rfl

theorem exec_keeps_other_words {i : Instr} {s t : State} (h : exec i s = .next t) :
    s.MemKept t ∨ ∃ rs2 off base a, i = .sw rs2 off base ∧ s.effectiveAddress off base = .ok a ∧
      ∀ b, b ≠ a → t.memWord b = s.memWord b := by
  have hmem := exec_mem h
  rcases storeBy_cases i s with hnone | ⟨rs2, off, base, a, hi, ha, hsome⟩
  · rw [hnone] at hmem
    exact .inl (State.memWord_congr hmem)
  · rw [hsome] at hmem
    exact .inr ⟨rs2, off, base, a, hi, ha, fun b hb =>
      (State.memWord_congr hmem b).trans (State.memWord_setMem_other s (s.reg rs2) hb)⟩

/-! ### Another data memory -/

/-- `s` over the data memory `m`. -/
def State.withMem (s : State) (m : Memory) : State := { s with mem := m }

/-- `m` holds what `s` holds at every address the instruction loads from. -/
def State.LoadsAgree (s : State) (m : Memory) (i : Instr) : Prop :=
  ∀ rd off base a, i = .lw rd off base → s.effectiveAddress off base = .ok a → Memory.read m a = s.memWord a

theorem State.loadsAgree_of_not_memory {i : Instr} (h : i.isMemory = false) (s : State) (m : Memory) : s.LoadsAgree m i := by
  rintro rd off base a rfl
  simp [Instr.isMemory] at h

theorem State.loadsAgree_lw {s : State} {m : Memory} {off : Int} {base : Reg} {a : Nat} (rd : Reg)
    (ha : s.effectiveAddress off base = .ok a) (hread : Memory.read m a = s.memWord a) :
    s.LoadsAgree m (.lw rd off base) := by
  rintro _ _ _ a' ⟨⟩ ha'
  rw [ha] at ha'
  cases ha'
  exact hread

theorem State.loadsAgree_sw (s : State) (m : Memory) (rs2 : Reg) (off : Int) (base : Reg) :
    s.LoadsAgree m (.sw rs2 off base) := by
  rintro _ _ _ _ ⟨⟩

/-- The effect of an instruction depends on the words it loads alone among the data words. -/
theorem effectOf_withMem {i : Instr} {s : State} {m : Memory} (h : s.LoadsAgree m i) :
    effectOf i (s.withMem m) = effectOf i s := by
  cases i with
  | lw rd off base =>
    have hsame : (s.withMem m).effectiveAddress off base = s.effectiveAddress off base := rfl
    rw [effectOf, effectOf, hsame]
    cases ha : s.effectiveAddress off base with
    | error c => rfl
    | ok a =>
      have hread : (s.withMem m).memWord a = s.memWord a := h rd off base a rfl ha
      rw [Except.map, Except.map, hread]
      rfl
  | _ => rfl

/-- A commit does the same over another memory, to which it makes the same write. -/
theorem State.commit_withMem (s : State) (m : Memory) (e : Effect) :
    (s.withMem m).commit e = (s.commit e).withMem ((s.withMem m).commitMem e.mw).mem := by
  obtain ⟨_ | _, _ | _, _, _, _ | _⟩ := e <;> rfl

/-- Over another memory that agrees on what it loads, an instruction has the same effect, and makes the same store. -/
theorem exec_withMem {i : Instr} {s t : State} {m : Memory} (h : exec i s = .next t) (hload : s.LoadsAgree m i) :
    exec i (s.withMem m) = .next (t.withMem ((s.withMem m).commitMem (storeBy i s)).mem) := by
  rcases exec_next s h with ⟨rfl, rfl⟩ | ⟨hi, e, he, rfl⟩ | ⟨hi, c, hc, rfl⟩
  · rfl
  · rw [exec_of_effect _ hi ((effectOf_withMem hload).trans he), State.commit_withMem, effectOf_mw_eq_storeBy he]
  · rw [exec_of_cause _ hi ((effectOf_withMem hload).trans hc), storeBy_of_cause hc]
    rfl

/-- An instruction that makes no store leaves another memory that agrees on what it loads as it is. -/
theorem exec_withMem_of_no_store {i : Instr} {s t : State} {m : Memory} (h : exec i s = .next t) (hload : s.LoadsAgree m i)
    (hstore : storeBy i s = none) : exec i (s.withMem m) = .next (t.withMem m) := by
  rw [exec_withMem h hload, hstore]
  rfl

/-- Settles O21: an instruction changes data memory by its store alone, and sees of it only the words it loads. -/
theorem dataMemoryAccesses : Obligations.DataMemoryAccesses := by
  unfold Obligations.DataMemoryAccesses
  refine ⟨fun i s t h => exec_keeps_other_words h, fun i s t m hi h => ?_, fun rd base off a s t m ha hread h => ?_,
    fun rs2 base off s t m h => ⟨_, exec_withMem h (s.loadsAgree_sw m rs2 off base), rfl, fun a ha => ?_, fun c hc => ?_⟩⟩
  · exact exec_withMem_of_no_store h (s.loadsAgree_of_not_memory hi m) (storeBy_of_not_memory hi s)
  · exact exec_withMem_of_no_store h (State.loadsAgree_lw rd ha hread) rfl
  · rw [storeBy_sw rs2 ha]
    exact ⟨fun hm => Memory.read_write_same a (s.reg rs2) hm, fun b hb => Memory.read_write_other m (s.reg rs2) hb⟩
  · rw [storeBy_sw_fault rs2 hc]
    rfl

end Sys2Proof.Machine
end

section
/-! PROOFS. Reads after a run see the latest store of the run (20_memory.md R61). -/

namespace Sys2Proof.Machine

/-! ### The store of a step -/

/-- An instruction that is not empty is dispatched unless its step faults. -/
theorem State.dispatches_of_decode {s : State} {txt : Text} {i : Instr} (hf : s.fetch = some txt)
    (hd : decode txt = .ok i) (hi : i ≠ .empty) :
    s.dispatches = if s.after.fault.valid then none else some i := by
  unfold State.dispatches
  cases i with
  | empty => exact absurd rfl hi
  | _ => simp only [hf, hd]

theorem State.dispatches_of_effect {s : State} {txt : Text} {i : Instr} {e : Effect} (hf : s.fetch = some txt)
    (hd : decode txt = .ok i) (hi : i ≠ .empty) (hafter : s.after = s.endReport.commit e) : s.dispatches = some i := by
  have hvalid : s.fault.valid = false := (s.runState_running.1 (s.fetch_eq_some.1 hf).1).1
  simp [State.dispatches_of_decode hf hd hi, hafter, hvalid]

/-- A step dispatches an instruction and commits its effect; or it dispatches none, and at most pc, latch and report change. -/
theorem State.after_cases (s : State) :
    (∃ i e, s.dispatches = some i ∧ i ≠ .empty ∧ effectOf i s.endReport = .ok e ∧ s.after = s.endReport.commit e) ∨
    (s.dispatches = none ∧ (s.after = s.endReport ∨ s.after = s.endReport.setPc (s.pc + 1) ∨
      ∃ c, s.after = s.endReport.enterFault c)) := by
  obtain ⟨hstop, ht⟩ | ⟨txt, hf, ⟨hd, ht⟩ | ⟨i, e, hd, hi, he, ht⟩ | ⟨i, c, hd, hi, -, ht⟩ | ⟨c, hd, ht⟩⟩ :=
    step_next s (step_eq_next_after s)
  · exact .inr ⟨by simp [State.dispatches, s.fetch_eq_none.2 hstop], .inl ht⟩
  · exact .inr ⟨by simp [State.dispatches, hf, hd], .inr (.inl ht)⟩
  · exact .inl ⟨i, e, State.dispatches_of_effect hf hd hi ht, hi, he, ht⟩
  · exact .inr ⟨by simp [State.dispatches_of_decode hf hd hi, ht], .inr (.inr ⟨c, ht⟩)⟩
  · exact .inr ⟨by simp [State.dispatches, hf, hd], .inr (.inr ⟨c, ht⟩)⟩

theorem State.storeOf_of_dispatches {s : State} {i : Instr} (h : s.dispatches = some i) : s.storeOf = storeBy i s := by
  unfold State.storeOf
  rw [h]
  cases i <;> rfl

theorem State.storeOf_of_dispatches_none {s : State} (h : s.dispatches = none) : s.storeOf = none := by
  unfold State.storeOf
  rw [h]

/-- A step changes data memory by its store and by nothing else. -/
theorem State.mem_after (s : State) : s.after.mem = (s.commitMem s.storeOf).mem := by
  rcases s.after_cases with ⟨i, e, hi, -, he, ht⟩ | ⟨hnone, ht⟩
  · rw [ht, State.commit_mem, effectOf_mw_eq_storeBy he, storeBy_endReport, State.storeOf_of_dispatches hi]
    cases storeBy i s <;> rfl
  · rw [State.storeOf_of_dispatches_none hnone]
    rcases ht with ht | ht | ⟨c, ht⟩ <;> rw [ht] <;> rfl

/-! ### Runs -/

theorem State.wf_mem_after {s : State} (h : Memory.wf s.mem) : Memory.wf s.after.mem := by
  rw [s.mem_after]
  cases s.storeOf with
  | none => exact h
  | some w => exact Memory.wf_write w.1 w.2 h

/-- The latest store of a run that begins with a step is one of the steps after it, or its own. -/
theorem State.latestStore_succ (k : Nat) (s : State) (a : Nat) :
    State.latestStore (k + 1) s a = (State.latestStore k s.after a).or (State.latestStore 1 s a) := by
  rw [State.latestStore]
  cases State.latestStore k s.after a <;> rfl

/-- After one step an address reads as the step's store to it, or as before. -/
theorem State.memWord_after {s : State} (h : Memory.wf s.mem) (a : Nat) :
    s.after.memWord a = (State.latestStore 1 s a).getD (s.memWord a) := by
  rw [State.memWord_congr s.mem_after a, State.latestStore, State.latestStore]
  rcases s.storeOf with _ | ⟨b, v⟩
  · rfl
  · by_cases hb : b = a
    · subst hb
      simpa [State.commitMem] using s.memWord_setMem_same b v h
    · simpa [State.commitMem, hb] using s.memWord_setMem_other v (Ne.symm hb)

theorem State.memWord_afterSteps (k : Nat) : ∀ {s : State} (a : Nat), Memory.wf s.mem →
    (State.afterSteps k s).memWord a = (State.latestStore k s a).getD (s.memWord a) := by
  induction k with
  | zero => exact fun _ _ => rfl
  | succ k ih =>
    intro s a h
    calc (State.afterSteps (k + 1) s).memWord a
        = (State.latestStore k s.after a).getD (s.after.memWord a) := ih a (State.wf_mem_after h)
      _ = (State.latestStore k s.after a).getD ((State.latestStore 1 s a).getD (s.memWord a)) := by
          rw [State.memWord_after h]
      _ = (State.latestStore (k + 1) s a).getD (s.memWord a) := by
          rw [State.latestStore_succ k s a, Option.getD_or]

/-- Settles O26, by induction on the number of steps: a step stores what `storeOf` says and keeps the canonical form, and the
memory after reset is empty. -/
theorem readsSeeLatestStore : Obligations.ReadsSeeLatestStore := by
  unfold Obligations.ReadsSeeLatestStore
  exact ⟨fun k s a h => State.memWord_afterSteps k a h, fun k s a => State.memWord_afterSteps k a Memory.wf_nil⟩

end Sys2Proof.Machine
end

section
/-! PROOFS. The round trip of encoding and decoding (30_encoding.md R85, R86, R89): the spelling of an instruction is tokenized
to the instruction's tokens (Laws/PerInstr.lean), and these decode to the instruction. -/

namespace Sys2Proof

theorem tokensOf_encode {i : Instr} (h : i.wellFormed = true) : tokensOf (encode i) = i.tokens := by
  cases i with
  | add rd rs1 rs2 => exact Laws.EncodeTokens.add rd rs1 rs2 h
  | sub rd rs1 rs2 => exact Laws.EncodeTokens.sub rd rs1 rs2 h
  | li rd imm => exact Laws.EncodeTokens.li rd imm h
  | lw rd off base => exact Laws.EncodeTokens.lw rd off base h
  | sw rs2 off base => exact Laws.EncodeTokens.sw rs2 off base h
  | beq rs1 rs2 lab => exact Laws.EncodeTokens.beq rs1 rs2 lab h
  | jal lab => exact Laws.EncodeTokens.jal lab h
  | jalRd rd lab => exact Laws.EncodeTokens.jalRd rd lab h
  | jRel n => exact Laws.EncodeTokens.jRel n h
  | jLab lab => exact Laws.EncodeTokens.jLab lab h
  | unknown op => exact Laws.EncodeTokens.unknown op h
  | empty => exact Laws.EncodeTokens.empty h

theorem parseRRR_regText (a b c : Reg) : parseRRR (regText a) (regText b) (regText c) = .ok (a, b, c) := by
  simp [parseRRR, parseReg_regText, Except.bind, Except.map]

theorem parseRM_memText (a : Reg) {off : Int} (h : inSignedRange off) (base : Reg) :
    parseRM (regText a) (memText off base) = .ok (a, off, base) := by
  simp [parseRM, parseReg_regText, parseMem_memText h, Except.bind, Except.map]

/-- The one operand of a J is a jump distance when it is a digit string, and a label otherwise (R83). -/
theorem decodeOperands_j (t : Text) :
    decodeOperands .j [t] = .ok (if isNat t then .jRel (decimalValue t) else .jLab t) := rfl

theorem decodeTokens_tokens {i : Instr} (h : i.wellFormed = true) : decodeTokens i.tokens = .ok i := by
  cases i with
  | add rd rs1 rs2 | sub rd rs1 rs2 =>
    rw [Instr.tokens, decodeTokens_spelling, decodeOperands, parseRRR_regText, Except.map]
  | li rd imm =>
    have hrange : inSignedRange imm := of_decide_eq_true h
    rw [Instr.tokens, decodeTokens_spelling, decodeOperands, parseReg_regText, parseInt_intText hrange]
    rfl
  | lw rd off base | sw rs2 off base =>
    have hrange : inSignedRange off := of_decide_eq_true h
    rw [Instr.tokens, decodeTokens_spelling, decodeOperands, parseRM_memText _ hrange, Except.map]
  | beq rs1 rs2 lab =>
    rw [Instr.tokens, decodeTokens_spelling, decodeOperands, parseReg_regText, parseReg_regText]
    rfl
  | jal lab => rw [Instr.tokens, decodeTokens_spelling, decodeOperands]
  | jalRd rd lab => rw [Instr.tokens, decodeTokens_spelling, decodeOperands, parseReg_regText, Except.map]
  | jRel n =>
    rw [Instr.tokens, decodeTokens_spelling, decodeOperands_j, if_pos (isNat_natText n), decimalValue_natText]
  | jLab lab =>
    obtain ⟨-, hlab⟩ : isUpperToken lab = true ∧ isNat lab = false := by simpa [Instr.wellFormed] using h
    simp [Instr.tokens, decodeTokens_spelling, decodeOperands_j, hlab]
  | unknown op =>
    obtain ⟨-, hop⟩ : isUpperToken op = true ∧ recognise op = none := by simpa [Instr.wellFormed] using h
    exact decodeTokens_unknown hop []
  | empty => rfl

/-- Settles O51: the spelling is tokenized to the instruction's tokens, and these decode to the instruction. -/
theorem encodeDecodeRoundTrip : Obligations.EncodeDecodeRoundTrip := by
  unfold Obligations.EncodeDecodeRoundTrip
  intro i h
  calc decode (encode i) = decodeTokens (tokensOf (encode i)) := rfl
    _ = decodeTokens i.tokens := by rw [tokensOf_encode h]
    _ = .ok i := decodeTokens_tokens h

end Sys2Proof
end

section
/-! PROOFS. Tokens (30_encoding.md R80): maximal runs between separators, and all that decoding sees of a string. -/

namespace Sys2Proof

/-! ### Maximal runs -/

/-- A run with separators after it is the first token; only at the end of the text may there be no separator. -/
theorem tokenize_run_append {run seps s : Text} (hrun : SeparatorFree run) (hseps : AllSeparators seps)
    (hend : seps = [] → s = []) : tokenize (run ++ seps ++ s) = run :: tokenize s := by
  cases seps with
  | nil => rw [hend rfl, List.append_nil, List.append_nil, tokenize_single hrun]; rfl
  | cons c seps =>
    obtain ⟨hc, hrest⟩ := List.forall_mem_cons.1 hseps
    calc tokenize (run ++ c :: seps ++ s) = tokenize (run ++ c :: (seps ++ s)) := by rw [List.append_assoc, List.cons_append]
      _ = run :: tokenize (seps ++ s) := tokenize_cons hrun hc _
      _ = run :: tokenize s := by rw [tokenize, tokensFrom_seps hrest, tokenize]

theorem tokenize_runs {runs : List (Text × Text)} (hruns : ∀ p ∈ runs, SeparatorFree p.1 ∧ AllSeparators p.2)
    (hgaps : ∀ p ∈ runs.dropLast, p.2 ≠ []) :
    tokenize (runs.map fun p => p.1 ++ p.2).flatten = runs.map Prod.fst := by
  induction runs with
  | nil => rfl
  | cons p ps ih =>
    obtain ⟨⟨hrun, hseps⟩, hps⟩ := List.forall_mem_cons.1 hruns
    have hend : p.2 = [] → (ps.map fun p => p.1 ++ p.2).flatten = [] := fun hnil => by
      cases ps with
      | nil => rfl
      | cons q qs => exact absurd hnil (hgaps p (by simp))
    have htail : tokenize (ps.map fun p => p.1 ++ p.2).flatten = ps.map Prod.fst := ih hps fun q hq => hgaps q (by
      cases ps with
      | nil => simp at hq
      | cons r rs => simp [hq])
    rw [List.map_cons, List.flatten_cons, tokenize_run_append hrun hseps hend, htail, List.map_cons]

/-- Settles O47, by induction on the runs; the separators before the first run give no token. -/
theorem tokensAreMaximalRuns : Obligations.TokensAreMaximalRuns := by
  unfold Obligations.TokensAreMaximalRuns
  intro txt lead runs hlead hruns hgaps htxt
  rw [tokensOf, htxt, tokenize, tokensFrom_seps hlead]
  exact tokenize_runs hruns hgaps

/-! ### What decoding does not see -/

theorem AllSeparators.upper {s : Text} (h : AllSeparators s) : AllSeparators (upper s) := by
  intro c hc
  obtain ⟨d, hd, rfl⟩ := List.mem_map.1 hc
  rw [isSeparator_upperChar, h d hd]

theorem tokensOf_any_seps {seps seps' : Text} (h : AllSeparators seps) (h' : AllSeparators seps') (hne : seps ≠ [])
    (hne' : seps' ≠ []) (a b : Text) : tokensOf (a ++ seps ++ b) = tokensOf (a ++ seps' ++ b) := by
  simp only [tokensOf, upper_append]
  exact tokensFrom_any_seps h.upper h'.upper (by simpa [upper] using hne) (by simpa [upper] using hne') _ _ []

/-- Settles O53: the tokens are of the uppercased string, and decoding looks at the tokens alone. -/
theorem decodeSeesTokensOnly : Obligations.DecodeSeesTokensOnly := by
  unfold Obligations.DecodeSeesTokensOnly
  refine ⟨fun txt => ?_, fun a b s s' hne hne' hs hs' => ?_⟩
  · rw [decode, decode, tokensOf, tokensOf, upper_upper]
  · rw [decode, decode, tokensOf_any_seps hs hs' hne hne']

end Sys2Proof
end

section
/-! PROOFS. The operand grammars (30_encoding.md R81, R82, R84). -/

namespace Sys2Proof

/-! ### Registers -/

theorem parseReg_not_digits {t : Text} (h : ¬ DigitString t) : parseReg t = .error (.regSyntax t) := by
  simp [parseReg, (isNat_eq_false t).2 h]

theorem parseReg_above {t : Text} (h : DigitString t) (hv : 31 < digitsNumber t) : parseReg t = .error (.regRange t) := by
  have hge : ¬ digitsNumber t < 32 := by omega
  simp [parseReg, (isNat_iff t).2 h, decimalValue_eq, hge]

theorem parseReg_in_range {t : Text} {r : Reg} (h : DigitString t) (hv : digitsNumber t = r.val) : parseReg t = .ok r := by
  simp [parseReg, (isNat_iff t).2 h, decimalValue_eq, hv]

/-- Settles O48: the three ways in which a token reads as a register operand. -/
theorem registerOperandGrammar : Obligations.RegisterOperandGrammar := by
  unfold Obligations.RegisterOperandGrammar
  exact fun tok => ⟨parseReg_not_digits, parseReg_above, fun r => parseReg_in_range⟩

/-! ### Integers -/

/-- `t` is an optional sign and the digits `ds`, with the value `v` (R82). -/
def SignedDigits (t ds : Text) (v : Int) : Prop :=
  ((t = ds ∨ t = '+' :: ds) ∧ v = digitsNumber ds) ∨ (t = '-' :: ds ∧ v = -(digitsNumber ds : Int))

theorem signedValue_of_unsigned {t : Text} (h : isNat t = true) : signedValue t = some (decimalValue t : Int) := by
  have hplain : ∀ c ∈ t, c ≠ '+' ∧ c ≠ '-' := fun c hc => by
    obtain ⟨-, hdigits⟩ : t ≠ [] ∧ ∀ c ∈ t, isDigit c = true := by simpa [isNat] using h
    obtain ⟨-, -, -, -, -, hplus, hminus⟩ := isDigit_plain (hdigits c hc)
    exact ⟨hplus, hminus⟩
  unfold signedValue
  split
  next => exact absurd rfl (hplain '+' List.mem_cons_self).1
  next => exact absurd rfl (hplain '-' List.mem_cons_self).2
  next => rw [if_pos h]

theorem signedValue_of_signedDigits {t ds : Text} {v : Int} (h : DigitString ds) (ht : SignedDigits t ds v) :
    signedValue t = some v := by
  have hn : isNat ds = true := (isNat_iff ds).2 h
  rcases ht with ⟨rfl | rfl, rfl⟩ | ⟨rfl, rfl⟩
  · rw [signedValue_of_unsigned hn, decimalValue_eq]
  · rw [signedValue, if_pos hn, decimalValue_eq]
  · rw [signedValue, if_pos hn, decimalValue_eq]

theorem signedValue_eq_none {t : Text} (h : ¬ ∃ ds, DigitString ds ∧ (t = ds ∨ t = '+' :: ds ∨ t = '-' :: ds)) :
    signedValue t = none := by
  unfold signedValue
  split
  next ds => exact if_neg fun hn => h ⟨ds, (isNat_iff ds).1 hn, .inr (.inl rfl)⟩
  next ds => exact if_neg fun hn => h ⟨ds, (isNat_iff ds).1 hn, .inr (.inr rfl)⟩
  next => exact if_neg fun hn => h ⟨t, (isNat_iff t).1 hn, .inl rfl⟩

theorem inSignedRange_iff (v : Int) : inSignedRange v ↔ -2147483648 ≤ v ∧ v ≤ 2147483647 := Iff.rfl

theorem parseInt_of_none {t : Text} (h : signedValue t = none) : parseInt t = .error (.intSyntax t) := by
  rw [parseInt, h]

theorem parseInt_in_range {t : Text} {v : Int} (h : signedValue t = some v) (hv : inSignedRange v) : parseInt t = .ok v := by
  simp only [parseInt, h]
  exact if_pos hv

theorem parseInt_out_of_range {t : Text} {v : Int} (h : signedValue t = some v) (hv : ¬ inSignedRange v) :
    parseInt t = .error (.intRange t) := by
  simp only [parseInt, h]
  exact if_neg hv

/-- Settles O49: `signedValue` reads an optional sign and digits and nothing else, and the range decides the rest. -/
theorem integerOperandGrammar : Obligations.IntegerOperandGrammar := by
  unfold Obligations.IntegerOperandGrammar
  refine fun tok => ⟨fun h => parseInt_of_none (signedValue_eq_none h), fun ds v hds htok => ?_⟩
  have hvalue : signedValue tok = some v := signedValue_of_signedDigits hds htok
  refine ⟨fun hin => parseInt_in_range hvalue ((inSignedRange_iff v).2 hin),
    fun hout => parseInt_out_of_range hvalue fun hin => ?_⟩
  obtain ⟨hlow, hhigh⟩ := (inSignedRange_iff v).1 hin
  omega

/-! ### Memory operands -/

theorem memShape_eq_none {t : Text} (h : ¬ ∃ p q, ParenFree p ∧ ParenFree q ∧ t = p ++ '(' :: (q ++ [')'])) :
    memShape t = none := by
  cases hs : memShape t with
  | none => rfl
  | some pq => exact absurd ⟨pq.1, pq.2, memShape_some hs⟩ h

/-- Settles O50: `memShape` finds the parts of exactly the texts `P(Q)`. -/
theorem memoryOperandGrammar : Obligations.MemoryOperandGrammar := by
  unfold Obligations.MemoryOperandGrammar
  refine fun tok => ⟨fun h => by rw [parseMem, memShape_eq_none h], ?_⟩
  rintro p q ⟨hp, hp'⟩ ⟨hq, hq'⟩ rfl
  rw [parseMem, memShape_eq hp hp' hq hq']
  rfl

end Sys2Proof
end

section
/-! PROOFS. What decodes: well-formed instructions (30_encoding.md R83, R85, R91), and sample strings. -/

namespace Sys2Proof

theorem isAscii_upperChar {c : Char} (h : c.toNat < 128) : isAscii (upperChar c) = true := by
  simp only [isAscii, toNat_upperChar, decide_eq_true_eq]
  split <;> omega

theorem isUpperToken_of_mem_tokensOf {txt t : Text} (hascii : ∀ c ∈ txt, c.toNat < 128) (ht : t ∈ tokensOf txt) :
    isUpperToken t = true := by
  obtain ⟨⟨hne, hfree⟩, hmem⟩ := tokensFrom_mem (by simp) ht
  have hchar : ∀ c ∈ t, isAscii c = true ∧ upperChar c = c := fun c hc => by
    obtain ⟨d, hd, rfl⟩ := List.mem_map.1 ((hmem c hc).resolve_left (by simp))
    exact ⟨isAscii_upperChar (hascii d hd), upperChar_upperChar d⟩
  simp only [isUpperToken, Bool.and_eq_true, Bool.not_eq_true', List.isEmpty_eq_false_iff, List.all_eq_true, beq_iff_eq]
  exact ⟨hne, fun c hc => ⟨⟨(hchar c hc).1, hfree c hc⟩, (hchar c hc).2⟩⟩

/-- An instruction of a recognised opcode is well-formed where its operand tokens are uppercase tokens. -/
theorem Instr.IsOf.wellFormed {i : Instr} {o : Opcode} {args : List Text} (h : i.IsOf o args)
    (hargs : ∀ t ∈ args, isUpperToken t = true) : i.wellFormed = true := by
  cases i with
  | add _ _ _ | sub _ _ _ | jRel _ => rfl
  | li _ _ | lw _ _ _ | sw _ _ _ => exact decide_eq_true h.2
  | beq _ _ lab | jal lab | jalRd _ lab => exact hargs lab h.2
  | jLab lab =>
    obtain ⟨-, hlab, hnat⟩ := h
    simp [Instr.wellFormed, hargs lab hlab, hnat]
  | unknown _ | empty => exact h.elim

/-- Settles O52: tokens of ASCII text are uppercase tokens, and the operands of a recognised opcode are in range. -/
theorem decodedIsWellFormed : Obligations.DecodedIsWellFormed := by
  unfold Obligations.DecodedIsWellFormed
  intro txt i hascii hdecode
  have htoken : ∀ t ∈ tokensOf txt, isUpperToken t = true := fun t ht => isUpperToken_of_mem_tokensOf hascii ht
  obtain ⟨rfl, -⟩ | ⟨op, args, htok, hop, rfl⟩ | ⟨o, args, htok, hok⟩ := decode_ok hdecode
  · rfl
  · rw [htok] at htoken
    simp [Instr.wellFormed, htoken op List.mem_cons_self, hop]
  · rw [htok] at htoken
    exact (decodeOperands_ok hok).wellFormed fun t ht => htoken t (List.mem_cons_of_mem _ ht)

/-- Settles O54: each string is decoded by evaluation. -/
theorem sampleStringsDecode : Obligations.SampleStringsDecode := by
  unfold Obligations.SampleStringsDecode
  exact ⟨rfl, rfl, rfl, rfl, rfl, rfl, rfl, rfl, rfl, rfl, rfl, rfl, rfl⟩

end Sys2Proof
end

section
/-! PROOFS. The program loader (30_encoding.md R70 to R77): its refusals, what a raw line adds, its label tables, and the state
after loading. -/

namespace Sys2Proof.Machine

/-! ### Refusals -/

theorem not_isAscii_iff (c : Char) : isAscii c ≠ true ↔ 128 ≤ c.toNat := by simp [isAscii]

theorem lines_not_ascii (lines : List Text) :
    ¬ lines.all (·.all isAscii) = true ↔ ∃ l ∈ lines, ∃ c ∈ l, 128 ≤ c.toNat := by
  simp only [List.all_eq_true, not_forall, not_isAscii_iff, exists_prop]

/-- Settles O56: `loadProgram` tests the two refusals and nothing else. -/
theorem loaderRefusals : Obligations.LoaderRefusals := by
  unfold Obligations.LoaderRefusals
  intro marker lines
  calc loadProgram marker lines = none
      ↔ ¬ (lines.all (·.all isAscii) = true ∧ (Program.ofLines marker lines).prog.length < lenBound) := by
        simp [loadProgram]
    _ ↔ ¬ lines.all (·.all isAscii) = true ∨ ¬ (Program.ofLines marker lines).prog.length < lenBound := not_and_or
    _ ↔ (∃ l ∈ lines, ∃ c ∈ l, 128 ≤ c.toNat) ∨ 2 ^ 31 ≤ (Program.ofLines marker lines).prog.length :=
        or_congr (lines_not_ascii lines) not_lt

/-! ### Lines -/

/-- Settles O59: `unquote` strips quotes at both ends. -/
theorem unquoteStripsQuotes : Obligations.UnquoteStripsQuotes := by
  unfold Obligations.UnquoteStripsQuotes
  refine fun q body q' hq hbody => stripBoth_eq (fun c hc => ?_) fun c hc => ?_
  · simpa [isQuote] using hq c hc
  · simpa [isQuote] using hbody c hc

theorem stripComment_append {marker : Char} {s tail : Text} (hs : marker ∉ s)
    (htail : tail = [] ∨ tail.head? = some marker) : stripComment marker (s ++ tail) = s := by
  cases tail with
  | nil => rw [List.append_nil, stripComment, splitFirst_none hs]
  | cons c tail =>
    obtain rfl : c = marker := by simpa using htail
    rw [stripComment, splitFirst_append hs]

theorem Program.addLine_of_stripped {marker : Char} {line body : Text} (hbody : trim (stripComment marker line) = body)
    (p : Program) : p.addLine marker line = if body = [] then p else p.addStripped body := by
  rw [Program.addLine, hbody]

theorem Program.addStripped_no_label {s : Text} (h : ':' ∉ s) (p : Program) : p.addStripped s = p.append s := by
  rw [Program.addStripped, labelDelim, splitFirst_none h]

theorem Program.addStripped_label {label : Text} (h : ':' ∉ label) (rest : Text) (p : Program) :
    p.addStripped (label ++ ':' :: rest) =
      if trim rest = [] then p.bindLabel label else (p.bindLabel label).append (trim rest) := by
  rw [Program.addStripped, labelDelim, splitFirst_append h]

/-- The text after a label delimiter loses the whitespace before it; at its end it has none. -/
theorem trim_gap_append {gap rest : Text} {c : Char} (hgap : ∀ d ∈ gap, isWhitespace d = true)
    (hc : isWhitespace c = false) (hlast : ∀ d, (c :: rest).getLast? = some d → isWhitespace d = false) :
    trim (gap ++ c :: rest) = c :: rest := by
  have hends : ∀ d, (c :: rest).head? = some d ∨ (c :: rest).getLast? = some d → isWhitespace d = false := by
    rintro d (hd | hd)
    · obtain rfl : c = d := by simpa using hd
      exact hc
    · exact hlast d hd
  simpa [trim] using stripBoth_eq (w' := []) (by simpa using hgap) hends

/-- Settles O57: comment and outer whitespace go, and `addStripped` splits the body at the first delimiter. -/
theorem loaderLineForms : Obligations.LoaderLineForms := by
  unfold Obligations.LoaderLineForms
  intro marker p w body w' tail hw hmarker htail hbody
  have hline : p.addLine marker (w ++ body ++ w' ++ tail) = if body = [] then p else p.addStripped body :=
    Program.addLine_of_stripped (by rw [stripComment_append hmarker htail]; exact stripBoth_eq hw hbody) p
  rw [hline]
  refine ⟨fun hnil => if_pos hnil, fun hne hlabel => ?_, ?_, ?_⟩
  · rw [if_neg hne, Program.addStripped_no_label hlabel]
    rfl
  · rintro label hlabel rfl
    rw [if_neg (by simp), Program.addStripped_label hlabel]
    rfl
  · rintro label gap rest c hlabel hgap hc rfl
    have hlast : ∀ d, (c :: rest).getLast? = some d → isWhitespace d = false := fun d hd =>
      hbody d (.inr (by simpa [List.getLast?_append, List.getLast?_cons] using hd))
    rw [if_neg (by simp), Program.addStripped_label hlabel, trim_gap_append hgap hc hlast,
      if_neg (List.cons_ne_nil c rest)]
    rfl

/-! ### Label tables -/

/-- Settles O58: `bindLabel` records one binding in each table. -/
theorem laterBindingWins : Obligations.LaterBindingWins := by
  unfold Obligations.LaterBindingWins
  exact fun p name => ⟨LabelTable.find_bind_same _ _ _, LabelTable.find_bind_same _ _ _,
    fun _ hother => LabelTable.find_bind_other _ _ hother, fun _ hother => LabelTable.find_bind_other _ _ hother⟩

/-! ### The state after loading -/

/-- `s` with the instruction store and the label tables of `p`. -/
def State.withProgram (s : State) (p : Program) : State :=
  { s with prog := p.prog, lblExact := p.lblExact, lblUpper := p.lblUpper }

/-- A load leaves the reset state over the new program. -/
theorem State.load_some {s t : State} {lines : List Text} (h : s.load lines = some t) :
    ∃ p, loadProgram s.params.commentMarker lines = some p ∧ t = (s.withProgram p).resetMachine := by
  obtain ⟨p, hp, rfl⟩ := Option.map_eq_some_iff.1 h
  exact ⟨p, hp, rfl⟩

theorem State.programInv_withProgram {marker : Char} {lines : List Text} {p : Program}
    (h : loadProgram marker lines = some p) (s : State) : (s.withProgram p).ProgramInv := by
  obtain ⟨hascii, rfl, hlen⟩ := loadProgram_some h
  have hgood := Program.good_ofLines marker hascii
  exact ⟨hlen, hgood.ascii, hgood.exactDistinct, hgood.upperDistinct, hgood.exactWithin, hgood.upperWithin⟩

theorem State.reg_resetMachine (s : State) (r : Reg) : s.resetMachine.reg r = 0 := by
  simp [State.reg, Vector.get_eq_getElem]

theorem State.inv_resetMachine {s : State} (h : s.ProgramInv) : s.resetMachine.Inv where
  zero := s.reg_resetMachine 0
  memForm := Memory.wf_nil
  memBelow := by simp
  cycles := rfl
  accesses := Nat.le_refl 0
  program := ⟨h.lenBelow, h.ascii, h.exactDistinct, h.upperDistinct, h.exactWithin, h.upperWithin⟩
  latchRow := by simp [FaultLatch.clear]
  latchPc := by simp [FaultLatch.clear]
  report := by simp

/-- Settles O5: a load is a reset over a program that the loader makes. -/
theorem loadEstablishesInv : Obligations.LoadEstablishesInv := by
  unfold Obligations.LoadEstablishesInv
  intro s t lines h
  obtain ⟨p, hp, rfl⟩ := State.load_some h
  exact ⟨State.inv_resetMachine (State.programInv_withProgram hp s), rfl, rfl⟩

end Sys2Proof.Machine
end

section
/-! PROOFS. A step and the program text: every text leads to a next state (30_encoding.md R92, 60_exceptions.md R184), and only
the string at pc is looked at (30_encoding.md R87, 60_exceptions.md R187). -/

namespace Sys2Proof.Machine

/-- Settles O13: no step ends in a host-level fault or refusal. -/
theorem stepAlwaysHasNextState : Obligations.StepAlwaysHasNextState := by
  unfold Obligations.StepAlwaysHasNextState
  exact step_eq_next_after

/-! ### Another instruction store -/

/-- `s` over the instruction store `q`. -/
def State.withProg (s : State) (q : List Text) : State := { s with prog := q }

theorem effectOf_withProg (i : Instr) (s : State) (q : List Text) : effectOf i (s.withProg q) = effectOf i s := by
  cases i <;> rfl

theorem State.commit_withProg (s : State) (q : List Text) (e : Effect) :
    (s.withProg q).commit e = (s.commit e).withProg q := by
  obtain ⟨_ | _, _ | _, _, _, _ | _⟩ := e <;> rfl

/-- An instruction does the same over another instruction store. -/
theorem exec_withProg {i : Instr} {s t : State} (h : exec i s = .next t) (q : List Text) :
    exec i (s.withProg q) = .next (t.withProg q) := by
  rcases exec_next s h with ⟨rfl, rfl⟩ | ⟨hi, e, he, rfl⟩ | ⟨hi, c, hc, rfl⟩
  · rfl
  · rw [exec_of_effect _ hi ((effectOf_withProg i s q).trans he), State.commit_withProg]
  · rw [exec_of_cause _ hi ((effectOf_withProg i s q).trans hc)]
    rfl

/-- Over another instruction store that fetches the same string, a step does the same. -/
theorem step_withProg {s t : State} {q : List Text} (hfetch : (s.withProg q).fetch = s.fetch) (h : step s = .next t) :
    step (s.withProg q) = .next (t.withProg q) := by
  cases hf : s.fetch with
  | none =>
    have hstop : s.runState ≠ .running := s.fetch_eq_none.1 hf
    rw [step_not_running s hstop] at h
    cases h
    exact step_not_running _ ((s.withProg q).fetch_eq_none.1 (hfetch.trans hf))
  | some txt =>
    cases hd : decode txt with
    | ok i =>
      rw [step_exec s hf hd] at h
      rw [step_exec _ (hfetch.trans hf) hd]
      exact exec_withProg h q
    | error c =>
      rw [step_decode_fault s hf hd] at h
      cases h
      exact step_decode_fault _ (hfetch.trans hf) hd

/-- Fetch does not see a slot other than the one at pc. -/
theorem State.fetch_withProg_set (s : State) {j : Nat} (txt : Text) (hj : j ≠ s.pc) :
    (s.withProg (s.prog.set j txt)).fetch = s.fetch := by
  have hrun : (s.withProg (s.prog.set j txt)).runState = s.runState :=
    State.runState_congr rfl rfl List.length_set
  have hslot : (s.prog.set j txt)[s.pc]? = s.prog[s.pc]? := List.getElem?_set_ne hj
  refine Option.ext fun t => ?_
  rw [State.fetch_eq_some, State.fetch_eq_some, hrun, ← hslot]
  rfl

/-- Settles O16: fetch, and with it the step, does not see the replaced slot. -/
theorem unreachedTextNeverMatters : Obligations.UnreachedTextNeverMatters := by
  unfold Obligations.UnreachedTextNeverMatters
  exact fun s t j txt hj h => step_withProg (s.fetch_withProg_set txt hj) h

end Sys2Proof.Machine
end

section
/-! PROOFS. The invariant of a step (40_step_cycle.md R115, R118; 20_memory.md R51; 60_exceptions.md R180, R184; 44_noop.md
R171): each thing a step can do keeps it. -/

namespace Sys2Proof.Machine

/-! ### The clauses about program, latch and memory -/

/-- The program part of the invariant speaks of the read-only inputs alone. -/
theorem State.ProgramInv.of_inputsKept {s t : State} (h : s.ProgramInv) (hkept : s.InputsKept t) : t.ProgramInv := by
  obtain ⟨hprog, hexact, hupper, -⟩ := hkept
  have hlen : t.len = s.len := congrArg List.length hprog
  exact {
    lenBelow := hlen ▸ h.lenBelow
    ascii := hprog ▸ h.ascii
    exactDistinct := hexact ▸ h.exactDistinct
    upperDistinct := hupper ▸ h.upperDistinct
    exactWithin := hexact ▸ hlen ▸ h.exactWithin
    upperWithin := hupper ▸ hlen ▸ h.upperWithin }

theorem State.isTableRow_of_decode_error {txt : Text} {c : FatalCause} (hd : decode txt = .error c) (s : State) :
    (s.enterFault c).fault.isTableRow = true := by
  have hmalformed : c.isMalformed = true := decode_error hd
  cases c with
  | operandCount _ | regSyntax _ | regRange _ | intSyntax _ | intRange _ | memSyntax _ => rfl
  | labelNotFound _ | negativeAddress _ | addressAboveBound _ => cases hmalformed

theorem State.isTableRow_of_effectOf_error {i : Instr} {s : State} {c : FatalCause} (hc : effectOf i s = .error c) :
    (s.enterFault c).fault.isTableRow = true := by
  obtain ⟨lab, hlab, -⟩ | ⟨off, base, ha, -⟩ := effectOf_error s hc
  · rw [State.resolve_error s hlab]
    rfl
  · obtain ⟨hneg, he⟩ | ⟨hnonneg, -, he⟩ | ⟨-, -, he⟩ := s.effectiveAddress_cases off base <;> rw [he] at ha <;> cases ha
    · simp [FaultLatch.isTableRow, FatalCause.code, FatalCause.sub, FatalCause.info, hneg]
    · simp [FaultLatch.isTableRow, FatalCause.code, FatalCause.sub, FatalCause.info, hnonneg]

theorem State.effectiveAddress_below {s : State} {off : Int} {base : Reg} {a : Nat}
    (ha : s.effectiveAddress off base = .ok a) : Config.atOrAboveBound s.params a = false := by
  obtain ⟨-, he⟩ | ⟨-, -, he⟩ | ⟨hnonneg, hbelow, he⟩ := s.effectiveAddress_cases off base <;> rw [he] at ha <;> cases ha
  rwa [Int.toNat_of_nonneg hnonneg]

/-- The memory of an effect's commit keeps its canonical form and its bound: only SW writes, at an address in range. -/
theorem State.commit_mem_inv {i : Instr} {s : State} {e : Effect} (he : effectOf i s = .ok e) (hform : Memory.wf s.mem)
    (hbelow : ∀ c ∈ s.mem, Config.atOrAboveBound s.params c.1 = false) :
    Memory.wf (s.commit e).mem ∧ ∀ c ∈ (s.commit e).mem, Config.atOrAboveBound s.params c.1 = false := by
  rw [State.commit_mem]
  obtain hnone | ⟨rs2, off, base, a, -, ha, hsome⟩ := effectOf_mw s he
  · rw [hnone]
    exact ⟨hform, hbelow⟩
  · rw [hsome]
    refine ⟨Memory.wf_write a (s.reg rs2) hform, fun c hc => ?_⟩
    obtain rfl | hold := Memory.mem_write hc
    · exact State.effectiveAddress_below ha
    · exact hbelow c hold

/-! ### What a step can do -/

theorem State.Inv.endReport {s : State} (h : s.Inv) : s.endReport.Inv :=
  { h with
    program := h.program.of_inputsKept ⟨rfl, rfl, rfl, rfl⟩
    report := by simp }

/-- The empty instruction, in a block with no fault. -/
theorem State.Inv.setPc {s : State} (h : s.Inv) (hvalid : s.fault.valid = false) (hdiag : s.diag = none) (n : Nat) :
    (s.setPc n).Inv :=
  { h with
    program := h.program.of_inputsKept ⟨rfl, rfl, rfl, rfl⟩
    latchPc := by simp [hvalid]
    report := by simp [hdiag] }

/-- A fault entry, where the cause is a row of the table and pc is inside the program. -/
theorem State.Inv.enterFault {s : State} (h : s.Inv) (hpc : s.pc < s.len) (hdiag : s.diag = none) {c : FatalCause}
    (hrow : (s.enterFault c).fault.isTableRow = true) : (s.enterFault c).Inv :=
  { h with
    program := h.program.of_inputsKept ⟨rfl, rfl, rfl, rfl⟩
    latchRow := fun _ => hrow
    latchPc := fun _ => ⟨rfl, hpc⟩
    report := by simp [hdiag] }

/-- The commit of an instruction, in a block with no fault. -/
theorem State.Inv.commit {i : Instr} {s : State} {e : Effect} (h : s.Inv) (hvalid : s.fault.valid = false)
    (hdiag : s.diag = none) (he : effectOf i s = .ok e) (hunknown : ∀ op, i = .unknown op → recognise op = none) :
    (s.commit e).Inv where
  zero := by simp [State.reg_commit]
  memForm := (State.commit_mem_inv he h.memForm h.memBelow).1
  memBelow := by simpa using (State.commit_mem_inv he h.memForm h.memBelow).2
  cycles := by simp [h.cycles]
  accesses := by
    have hone : e.memAccess ≤ 1 := by rw [effectOf_memAccess s he]; split <;> simp
    simpa using Nat.add_le_add h.accesses hone
  program := h.program.of_inputsKept (by simp [State.InputsKept])
  latchRow := by simp [hvalid]
  latchPc := by simp [hvalid]
  report := by
    obtain ⟨op, hi, hreport, hnpc⟩ | ⟨-, hreport⟩ := effectOf_diag s he
    · simp [hreport, hnpc, hunknown op hi]
    · simp [hreport, hdiag]

/-- Settles O4: a step ends the report, and then does nothing, advances pc, commits an effect or enters a fault. -/
theorem stepKeepsInv : Obligations.StepKeepsInv := by
  unfold Obligations.StepKeepsInv
  intro s t h hstep
  have hend : s.endReport.Inv := h.endReport
  obtain ⟨-, rfl⟩ | ⟨txt, hfetch, hdone⟩ := step_next s hstep
  · exact hend
  · obtain ⟨hvalid, hpc⟩ := s.runState_running.1 (s.fetch_eq_some.1 hfetch).1
    obtain ⟨-, rfl⟩ | ⟨i, e, hd, -, he, rfl⟩ | ⟨i, c, -, -, hc, rfl⟩ | ⟨c, hd, rfl⟩ := hdone
    · exact hend.setPc hvalid rfl (s.pc + 1)
    · exact hend.commit hvalid rfl he fun op hi => decode_unknown (hi ▸ hd)
    · exact hend.enterFault hpc rfl (State.isTableRow_of_effectOf_error hc)
    · exact hend.enterFault hpc rfl (State.isTableRow_of_decode_error hd s.endReport)

end Sys2Proof.Machine
end

section
/-! PROOFS. The counters over a step and over a run (40_step_cycle.md R114, R115). -/

namespace Sys2Proof.Machine

/-! ### One step -/

/-- A step dispatches the instruction it decodes, if that is not the empty one and the step does not fault. -/
theorem State.dispatches_eq_some {s : State} {i : Instr} :
    s.dispatches = some i ↔
      ∃ txt, s.fetch = some txt ∧ decode txt = .ok i ∧ i ≠ .empty ∧ s.after.fault.valid = false := by
  constructor
  · intro h
    unfold State.dispatches at h
    split at h
    next => cases h
    next txt hf =>
      split at h
      next => cases h
      next => cases h
      next j hne hd =>
        split at h
        next => cases h
        next hvalid =>
          cases h
          exact ⟨txt, hf, hd, hne, Bool.eq_false_iff.2 hvalid⟩
  · rintro ⟨txt, hf, hd, hi, hvalid⟩
    simp [State.dispatches_of_decode hf hd hi, hvalid]

/-- A step counts the instruction it dispatches, and nothing else. -/
theorem State.counters_after (s : State) :
    s.after.ctrInstr = s.ctrInstr + (if s.dispatches.isSome then 1 else 0) ∧
    s.after.ctrCycle = s.ctrCycle + (if s.dispatches.isSome then 1 else 0) ∧
    s.after.ctrMem = s.ctrMem + (if s.dispatches.any Instr.isMemory then 1 else 0) := by
  obtain ⟨i, e, hi, -, he, ht⟩ | ⟨hnone, ht⟩ := s.after_cases
  · simp [hi, ht, effectOf_memAccess _ he]
  · rw [hnone]
    obtain ht | ht | ⟨c, ht⟩ := ht <;> rw [ht] <;> exact ⟨rfl, rfl, rfl⟩

/-- Settles O24: the counters grow by what the step dispatches. -/
theorem countersOfOneStep : Obligations.CountersOfOneStep := by
  unfold Obligations.CountersOfOneStep
  intro s t txt hrun hslot hstep
  obtain rfl : s.after = t := after_eq s hstep
  have hf : s.fetch = some txt := s.fetch_eq_some.2 ⟨hrun, hslot⟩
  have hcount := s.counters_after
  refine ⟨fun hnot => ?_, fun i hvalid hd hi => ?_⟩
  · have hnone : s.dispatches = none := by
      refine Option.eq_none_iff_forall_ne_some.2 fun i hdisp => ?_
      obtain ⟨txt', hf', hd, hi, hvalid⟩ := State.dispatches_eq_some.1 hdisp
      obtain rfl : txt = txt' := Option.some.inj (hf.symm.trans hf')
      obtain hfault | hempty := hnot
      · simp [hvalid] at hfault
      · exact hi (Except.ok.inj (hd.symm.trans hempty))
    simpa [hnone] using hcount
  · have hsome : s.dispatches = some i := State.dispatches_eq_some.2 ⟨txt, hf, hd, hi, hvalid⟩
    simpa [hsome] using hcount

/-! ### Runs -/

theorem State.accessCount_le_dispatchCount (k : Nat) : ∀ s : State, State.accessCount k s ≤ State.dispatchCount k s := by
  induction k with
  | zero => exact fun _ => Nat.le_refl 0
  | succ k ih =>
    intro s
    refine Nat.add_le_add ?_ (ih s.after)
    cases s.dispatches with
    | none => exact Nat.le_refl 0
    | some i => cases hmem : i.isMemory <;> simp [hmem]

theorem State.counters_afterSteps (k : Nat) : ∀ s : State,
    (State.afterSteps k s).ctrInstr = s.ctrInstr + State.dispatchCount k s ∧
    (State.afterSteps k s).ctrCycle = s.ctrCycle + State.dispatchCount k s ∧
    (State.afterSteps k s).ctrMem = s.ctrMem + State.accessCount k s := by
  induction k with
  | zero => exact fun _ => ⟨rfl, rfl, rfl⟩
  | succ k ih =>
    intro s
    obtain ⟨hinstr, hcycle, hmem⟩ := s.counters_after
    obtain ⟨hinstr', hcycle', hmem'⟩ := ih s.after
    simp only [State.afterSteps, State.dispatchCount, State.accessCount]
    exact ⟨by rw [hinstr', hinstr, Nat.add_assoc], by rw [hcycle', hcycle, Nat.add_assoc],
      by rw [hmem', hmem, Nat.add_assoc]⟩

/-- Settles O25, by induction on the number of steps. -/
theorem metricsCountDispatched : Obligations.MetricsCountDispatched := by
  unfold Obligations.MetricsCountDispatched
  intro k s
  obtain ⟨hinstr, hcycle, hmem⟩ := State.counters_afterSteps k s
  exact ⟨hinstr, hcycle, hmem, State.accessCount_le_dispatchCount k s⟩

end Sys2Proof.Machine
end

section
/-! PROOFS. A step does not see an invalid latch or an earlier report (40_step_cycle.md R113). -/

namespace Sys2Proof.Machine

/-- `s` with the fault latch `f`. -/
def State.withFault (s : State) (f : FaultLatch) : State := { s with fault := f }

theorem effectOf_withFault (i : Instr) (s : State) (f : FaultLatch) : effectOf i (s.withFault f) = effectOf i s := by
  cases i <;> rfl

theorem State.commit_withFault (s : State) (f : FaultLatch) (e : Effect) :
    (s.withFault f).commit e = (s.commit e).withFault f := by
  obtain ⟨_ | _, _ | _, _, _, _ | _⟩ := e <;> rfl

/-- With another latch, an instruction that faults leaves the same state, and any other one keeps that latch. -/
theorem exec_withFault {i : Instr} {s t : State} (hvalid : s.fault.valid = false) (h : exec i s = .next t)
    (f : FaultLatch) : exec i (s.withFault f) = .next (if t.fault.valid then t else t.withFault f) := by
  obtain ⟨rfl, rfl⟩ | ⟨hi, e, he, rfl⟩ | ⟨hi, c, hc, rfl⟩ := exec_next s h
  · rw [State.setPc_fault, hvalid]
    rfl
  · rw [exec_of_effect _ hi ((effectOf_withFault i s f).trans he), State.commit_withFault]
    simp [hvalid]
  · exact exec_of_cause _ hi ((effectOf_withFault i s f).trans hc)

/-- With another invalid latch, a step that faults leaves the same state, and any other one keeps that latch. -/
theorem step_withFault {s t : State} (hrun : s.runState = .running) (h : step s = .next t) {f : FaultLatch}
    (hf : f.valid = false) : step (s.withFault f) = .next (if t.fault.valid then t else t.withFault f) := by
  obtain ⟨hvalid, hpc⟩ := s.runState_running.1 hrun
  have hfetch : s.fetch = some s.prog[s.pc] := s.fetch_eq_some.2 ⟨hrun, List.getElem?_eq_getElem hpc⟩
  have hfetch' : (s.withFault f).fetch = some s.prog[s.pc] :=
    (s.withFault f).fetch_eq_some.2 ⟨(s.withFault f).runState_running.2 ⟨hf, hpc⟩, List.getElem?_eq_getElem hpc⟩
  cases hd : decode s.prog[s.pc] with
  | ok i =>
    rw [step_exec s hfetch hd] at h
    rw [step_exec _ hfetch' hd]
    exact exec_withFault (s := s.endReport) hvalid h f
  | error c =>
    rw [step_decode_fault s hfetch hd] at h
    cases h
    exact step_decode_fault _ hfetch' hd

theorem step_endReport (s : State) : step s.endReport = step s := rfl

/-- Settles O17: without their reports the two states differ in the latch alone. -/
theorem stepDependsOnArchitecturalState : Obligations.StepDependsOnArchitecturalState := by
  unfold Obligations.StepDependsOnArchitecturalState
  intro s s' hrun hrun' hagree
  have hlatch : s'.endReport = s.endReport.withFault s'.fault := by rw [← hagree]; rfl
  obtain ⟨t, ht⟩ := step_total s.endReport
  have ht' : step s' = .next (if t.fault.valid then t else t.withFault s'.fault) := by
    rw [← step_endReport, hlatch]
    exact step_withFault hrun ht (s'.runState_running.1 hrun').1
  refine ⟨t, _, ht, ht', ?_⟩
  split
  next => exact ⟨rfl, rfl, fun _ => rfl⟩
  next hvalid =>
    refine ⟨rfl, ?_, fun h => absurd h hvalid⟩
    exact (s'.runState_running.1 hrun').1.trans (Bool.eq_false_iff.2 hvalid).symm

end Sys2Proof.Machine
end

section
/-! PROOFS. The commit of one step: decoding and execution, register 0, label resolution, the next-pc multiplexer and halting
(40_step_cycle.md R110, R111, R117, R119, R120, R121). -/

namespace Sys2Proof.Machine

/-- Settles O12: the two cases of a fetched string. -/
theorem stepRunsDecodedInstruction : Obligations.StepRunsDecodedInstruction := by
  unfold Obligations.StepRunsDecodedInstruction
  intro s txt hrun hslot
  have hf : s.fetch = some txt := s.fetch_eq_some.2 ⟨hrun, hslot⟩
  exact ⟨fun i hd => step_exec s hf hd, fun c hd => ⟨_, step_decode_fault s hf hd, rfl⟩⟩

/-- Settles O19: every commit forces register 0, and a fault entry counts nothing. -/
theorem registerZeroForced : Obligations.RegisterZeroForced := by
  unfold Obligations.RegisterZeroForced
  refine ⟨fun i s t hi h hcount => ?_, fun s t h r => ?_⟩
  · obtain ⟨hempty, -⟩ | ⟨-, e, -, rfl⟩ | ⟨-, c, -, rfl⟩ := exec_next s h
    · exact absurd hempty hi
    · simp [State.reg_commit]
    · simp at hcount
  · rw [exec_empty] at h
    cases h
    rfl

/-! ### Label resolution -/

/-- In a table with one entry per name, an entry is found by its name. -/
theorem LabelTable.find_of_mem {l : LabelTable} {name : Text} {i : Nat} (hl : l.distinct) (h : (name, i) ∈ l) :
    LabelTable.find l name = some i := by
  induction l with
  | nil => cases h
  | cons e l ih =>
    obtain ⟨n, j⟩ := e
    obtain ⟨hn, hl⟩ := List.nodup_cons.1 hl
    obtain heq | h := List.mem_cons.1 h
    · cases heq
      exact if_pos rfl
    · have hne : n ≠ name := by rintro rfl; exact hn (List.mem_map.2 ⟨_, h, rfl⟩)
      exact (if_neg hne).trans (ih hl h)

theorem State.resolve_of_exact {s : State} {name : Text} {i : Nat} (h : LabelTable.find s.lblExact name = some i) :
    s.resolve name = .ok i := by simp [State.resolve, h]

/-- Where the exact-case table misses, the uppercase one decides. -/
theorem State.resolve_of_exact_none {s : State} {name : Text} (h : LabelTable.find s.lblExact name = none) :
    s.resolve name = (LabelTable.find s.lblUpper (upper name)).elim (.error (.labelNotFound name)) .ok := by
  cases hu : LabelTable.find s.lblUpper (upper name) <;> simp [State.resolve, h, hu]

theorem State.resolve_le {s : State} {name : Text} {i n : Nat} (hexact : s.lblExact.within n)
    (hupper : s.lblUpper.within n) (h : s.resolve name = .ok i) : i ≤ n := by
  obtain ⟨j, hj, he⟩ | ⟨j, -, hj, he⟩ | ⟨-, -, he⟩ := s.resolve_cases name <;> rw [he] at h <;> cases h
  · exact hexact _ (LabelTable.mem_of_find hj)
  · exact hupper _ (LabelTable.mem_of_find hj)

/-- Settles O43: look-up in a table with one entry per name, in the order of the two tables. -/
theorem resolveExactThenUppercase : Obligations.ResolveExactThenUppercase := by
  unfold Obligations.ResolveExactThenUppercase
  intro s name hexact hupper
  refine ⟨fun i hi => State.resolve_of_exact (LabelTable.find_of_mem hexact hi), fun hmiss => ?_,
    fun hexactIn hupperIn i h => State.resolve_le hexactIn hupperIn h⟩
  rw [State.resolve_of_exact_none ((LabelTable.find_eq_none _ _).2 hmiss)]
  exact ⟨fun i hi => by rw [LabelTable.find_of_mem hupper hi]; rfl,
    fun hmissUpper => by rw [(LabelTable.find_eq_none _ _).2 hmissUpper]; rfl⟩

/-! ### The next-pc multiplexer -/

/-- The select of the next-pc multiplexer (40_step_cycle.md R120, column "chosen by"). -/
def State.select (s : State) : Instr → NextPc
  | .beq rs1 rs2 lab => if s.reg rs1 = s.reg rs2 then .label lab else .seq
  | .jal lab => .label lab
  | .jalRd _ lab => .label lab
  | .jRel n => .rel n
  | .jLab lab => .label lab
  | _ => .seq

/-- An instruction that makes no memory access completes or faults as its next pc does. -/
theorem map_npc_effectOf {i : Instr} (h : i.isMemory = false) (s : State) :
    (effectOf i s).map Effect.npc = s.nextPc (s.select i) := by
  cases i with
  | lw _ _ _ | sw _ _ _ => cases h
  | beq rs1 rs2 lab =>
    by_cases heq : s.reg rs1 = s.reg rs2
    · simp only [effectOf, State.select, if_pos heq, State.nextPc]
      cases s.resolve lab <;> rfl
    · simp only [effectOf, State.select, if_neg heq]
      rfl
  | jal lab | jalRd _ lab | jLab lab =>
    simp only [effectOf, State.select, State.nextPc]
    cases s.resolve lab <;> rfl
  | _ => rfl

theorem effectOf_npc {i : Instr} {s : State} {e : Effect} (he : effectOf i s = .ok e) :
    s.nextPc (s.select i) = .ok e.npc := by
  cases hmem : i.isMemory with
  | false => rw [← map_npc_effectOf hmem, he]; rfl
  | true =>
    cases i with
    | lw _ _ _ | sw _ _ _ =>
      obtain ⟨a, -, rfl⟩ := Except.map_ok he
      rfl
    | _ => cases hmem

/-- The next pc after an instruction that does not fault. -/
theorem exec_nextPc {i : Instr} {s t : State} (h : exec i s = .next t) (hvalid : t.fault.valid = false) :
    s.nextPc (s.select i) = .ok t.pc := by
  obtain ⟨rfl, rfl⟩ | ⟨-, e, he, rfl⟩ | ⟨-, c, -, rfl⟩ := exec_next s h
  · rfl
  · rw [State.commit_pc]
    exact effectOf_npc he
  · cases hvalid

/-- An instruction that makes no memory access completes where the next pc it selects exists. -/
theorem exec_of_nextPc {i : Instr} {s : State} {n : Nat} (hmem : i.isMemory = false)
    (hn : s.nextPc (s.select i) = .ok n) : ∃ t, exec i s = .next t ∧ t.pc = n ∧ t.fault = s.fault := by
  rw [← map_npc_effectOf hmem] at hn
  obtain ⟨e, he, rfl⟩ := Except.map_ok hn
  by_cases hi : i = .empty
  · subst hi
    cases he
    exact ⟨_, rfl, rfl, rfl⟩
  · exact ⟨_, exec_of_effect s hi he, s.commit_pc e, s.commit_fault e⟩

/-- Settles O22: the select of each instruction, and an untaken BEQ selects no label. -/
theorem nextPcMultiplexer : Obligations.NextPcMultiplexer := by
  unfold Obligations.NextPcMultiplexer
  refine ⟨fun i s t h hvalid => ?_, fun rs1 rs2 lab s hne => exec_of_nextPc rfl (by simp [State.select, hne, State.nextPc])⟩
  have hpc : s.nextPc (s.select i) = .ok t.pc := exec_nextPc h hvalid
  cases i with
  | add _ _ _ | sub _ _ _ | li _ _ | lw _ _ _ | sw _ _ _ | jRel _ | unknown _ | empty => exact (Except.ok.inj hpc).symm
  | jal _ | jalRd _ _ | jLab _ => exact hpc
  | beq rs1 rs2 lab =>
    by_cases heq : s.reg rs1 = s.reg rs2
    · simpa [State.select, heq, State.nextPc] using hpc
    · simpa [State.select, heq, State.nextPc, eq_comm] using hpc

/-! ### Halting -/

/-- Settles O23: the run state is read off the latch and the new pc, and a transfer to a label completes where it resolves. -/
theorem targetAtLenHalts : Obligations.TargetAtLenHalts := by
  unfold Obligations.TargetAtLenHalts
  refine ⟨fun s t hrun h hvalid => ?_, fun s txt lab hrun hslot htransfer hlab => ?_⟩
  · obtain ⟨hprog, -, -, -⟩ := step_inputs s h
    rw [t.runState_halted, t.runState_running, hprog]
    simp [hvalid, State.len]
  · obtain ⟨i, hd, hmem, hselect⟩ : ∃ i, decode txt = .ok i ∧ i.isMemory = false ∧ s.select i = .label lab := by
      obtain hd | hd | ⟨rd, hd⟩ | ⟨rs1, rs2, hd, heq⟩ := htransfer
      · exact ⟨_, hd, rfl, rfl⟩
      · exact ⟨_, hd, rfl, rfl⟩
      · exact ⟨_, hd, rfl, rfl⟩
      · exact ⟨_, hd, rfl, if_pos heq⟩
    have hnext : s.endReport.nextPc (s.endReport.select i) = .ok s.len := by
      have hsame : s.endReport.select i = s.select i := by cases i <;> rfl
      rw [hsame, hselect]
      exact hlab
    obtain ⟨t, ht, hpc, hfault⟩ := exec_of_nextPc hmem hnext
    have hstep : step s = .next t := (step_exec s (s.fetch_eq_some.2 ⟨hrun, hslot⟩) hd).trans ht
    obtain ⟨hprog, -, -, -⟩ := step_inputs s hstep
    refine ⟨t, hstep, t.runState_halted.2 ⟨?_, ?_⟩, hpc, hfault⟩
    · rw [hfault]
      exact (s.runState_running.1 hrun).1
    · rw [hprog, hpc]
      rfl

end Sys2Proof.Machine
end

section
/-! PROOFS. ADD, SUB and LI (41_arithmetic.md R130, R131, R132, R133). -/

namespace Sys2Proof

/-! ### Words and integers modulo 2^32 -/

theorem toInt_modEq_toNat (v : Word) : v.toInt ≡ v.toNat [ZMOD 2 ^ 32] := by
  rw [BitVec.toInt_eq_toNat_bmod]
  exact Int.bmod_emod

theorem toNat_bvXlen (i : Int) : ((bvXlen i).toNat : Int) = i % 2 ^ 32 := by
  rw [BitVec.toNat_ofInt]
  exact Int.toNat_of_nonneg (Int.emod_nonneg i (by decide))

theorem toInt_bvXlen_modEq (i : Int) : (bvXlen i).toInt ≡ i [ZMOD 2 ^ 32] := by
  rw [BitVec.toInt_ofInt]
  exact Int.bmod_emod

theorem toInt_bvXlen_of_inSignedRange {i : Int} (h : inSignedRange i) : (bvXlen i).toInt = i :=
  BitVec.toInt_ofInt_eq_self (by decide) h.1 (Int.lt_of_le_sub_one h.2)

/-! ### Decoding -/

theorem decodeTokens_count {o : Opcode} {args : List Text} (h : args.length ∉ o.counts) :
    decodeTokens (o.spelling :: args) = .error (.operandCount o.spelling) :=
  (decodeTokens_spelling o args).trans (decodeOperands_count h)

/-- Three register operands are parsed from left to right, whatever instruction they make. -/
theorem map_parseRRR (a b c : Text) (f : Reg → Reg → Reg → Instr) :
    ((parseRRR a b c).map fun r => f r.1 r.2.1 r.2.2) =
      (parseReg a).bind fun x => (parseReg b).bind fun y => (parseReg c).map fun z => f x y z := by
  unfold parseRRR
  cases parseReg a with
  | error _ => rfl
  | ok x =>
    cases parseReg b with
    | error _ => rfl
    | ok y => cases parseReg c <;> rfl

end Sys2Proof

namespace Sys2Proof.Machine

variable {s t : State} {rd : Reg} {v : Word}

/-! ### A commit in the terms of the statements -/

theorem State.RegWritten.reg_dest (h : s.RegWritten t rd v) (hrd : rd ≠ 0) : t.reg rd = v := by
  obtain ⟨-, hreg⟩ := h
  rw [hreg rd hrd, if_pos rfl]

theorem State.regWritten_commit {e : Effect} (h : e.wr = some (rd, v)) : s.RegWritten (s.commit e) rd v :=
  ⟨by rw [State.reg_commit, if_pos rfl], fun r hr => by rw [State.reg_commit, if_neg hr, h]⟩

theorem State.memKept_commit {e : Effect} (h : e.mw = none) : s.MemKept (s.commit e) :=
  State.memWord_congr (by rw [State.commit_mem, h, State.commitMem])

theorem State.dispatched_commit (s : State) (e : Effect) : s.Dispatched (s.commit e) e.npc e.memAccess :=
  ⟨s.commit_pc e, s.commit_ctrInstr e, s.commit_ctrCycle e, s.commit_ctrMem e,
    ⟨s.commit_prog e, s.commit_lblExact e, s.commit_lblUpper e, s.commit_params e⟩, s.commit_fault e⟩

/-- An instruction whose whole effect is `v` in rd and pc + 1 does that and nothing else. -/
theorem exec_of_regWrite {i : Instr} (hi : i ≠ .empty)
    (he : effectOf i s = .ok { wr := some (rd, v), npc := s.pc + 1 }) :
    ∃ t, exec i s = .next t ∧ s.RegWritten t rd v ∧ s.MemKept t ∧ s.Dispatched t (s.pc + 1) 0 ∧ t.diag = s.diag :=
  ⟨_, exec_of_effect s hi he, State.regWritten_commit rfl, State.memKept_commit rfl, s.dispatched_commit _,
    s.commit_diag _⟩

/-- R133: where the word written narrows the integer `n`, no fault is signalled and both readings of rd are `n` modulo 2^32. -/
theorem exec_of_regWrite_wraps {i : Instr} {n : Int} (hi : i ≠ .empty)
    (he : effectOf i s = .ok { wr := some (rd, bvXlen n), npc := s.pc + 1 }) (hrd : rd ≠ 0) :
    ∃ t, exec i s = .next t ∧ t.fault = s.fault ∧ ((t.reg rd).toNat : Int) = n % 2 ^ 32 ∧
      ((t.reg rd).toInt - n) % 2 ^ 32 = 0 := by
  obtain ⟨t, ht, hreg, -, ⟨-, -, -, -, -, hfault⟩, -⟩ := exec_of_regWrite hi he
  refine ⟨t, ht, hfault, ?_, ?_⟩
  · rw [hreg.reg_dest hrd, toNat_bvXlen]
  · rw [hreg.reg_dest hrd]
    exact Int.emod_eq_emod_iff_emod_sub_eq_zero.1 (toInt_bvXlen_modEq n)

/-! ### The obligations -/

/-- Settles O45: rd reads as the signed sum or difference modulo 2^32, and each signed operand is congruent to its
unsigned reading. -/
theorem arithmeticWraps : Obligations.ArithmeticWraps := by
  unfold Obligations.ArithmeticWraps
  intro s rd rs1 rs2 hrd
  have h1 := toInt_modEq_toNat (s.reg rs1)
  have h2 := toInt_modEq_toNat (s.reg rs2)
  constructor
  · obtain ⟨t, ht, hfault, hnat, hint⟩ := exec_of_regWrite_wraps (i := .add rd rs1 rs2) nofun rfl hrd
    exact ⟨t, ht, hfault, by exact_mod_cast hnat.trans (h1.add h2), hint⟩
  · obtain ⟨t, ht, hfault, hnat, hint⟩ := exec_of_regWrite_wraps (i := .sub rd rs1 rs2) nofun rfl hrd
    exact ⟨t, ht, hfault, hnat.trans (h1.sub h2), hint⟩

/-- Settles O30: by format RRR, and the sum is the whole effect besides pc + 1. -/
theorem addSumsTwoRegisters : Obligations.AddSumsTwoRegisters := by
  unfold Obligations.AddSumsTwoRegisters
  refine ⟨fun args hlen => decodeTokens_count (o := .add) (by simpa [Opcode.counts] using hlen), fun a b c => ?_,
    fun s rd rs1 rs2 => exec_of_regWrite nofun rfl⟩
  exact (decodeTokens_spelling .add [a, b, c]).trans (map_parseRRR a b c .add)

/-- Settles O31: by format RRR, and the difference rs1 - rs2 is the whole effect besides pc + 1. -/
theorem subSubtractsSecondRegister : Obligations.SubSubtractsSecondRegister := by
  unfold Obligations.SubSubtractsSecondRegister
  refine ⟨fun args hlen => decodeTokens_count (o := .sub) (by simpa [Opcode.counts] using hlen), fun a b c => ?_,
    fun s rd rs1 rs2 => exec_of_regWrite nofun rfl⟩
  exact (decodeTokens_spelling .sub [a, b, c]).trans (map_parseRRR a b c .sub)

/-- Settles O32: the narrowed immediate is the whole effect besides pc + 1, and narrowing keeps an integer in range. -/
theorem liLoadsImmediate : Obligations.LiLoadsImmediate := by
  unfold Obligations.LiLoadsImmediate
  refine ⟨fun args hlen => decodeTokens_count (o := .li) (by simpa [Opcode.counts] using hlen),
    fun a b => decodeTokens_spelling .li [a, b], fun s rd imm => exec_of_regWrite nofun rfl, fun s rd imm hrd hlo hhi => ?_⟩
  obtain ⟨t, ht, hreg, -⟩ := exec_of_regWrite (i := .li rd imm) (s := s) nofun rfl
  exact ⟨t, ht, by rw [hreg.reg_dest hrd, toInt_bvXlen_of_inSignedRange ((inSignedRange_iff imm).2 ⟨hlo, hhi⟩)]⟩

end Sys2Proof.Machine
end

section
/-! PROOFS. LW and SW (42_load_store.md R140, R142): decoding, the effect at a valid address, the fault at any other, and the
round trip. -/

namespace Sys2Proof

/-! ### Decoding -/

/-- A register and a memory operand are parsed from left to right, whatever instruction they make. -/
theorem map_parseRM (a m : Text) (f : Reg → Int → Reg → Instr) :
    ((parseRM a m).map fun r => f r.1 r.2.1 r.2.2) =
      (parseReg a).bind fun x => (parseMem m).map fun p => f x p.1 p.2 := by
  unfold parseRM
  cases parseReg a with
  | error _ => rfl
  | ok x => cases parseMem m <;> rfl

end Sys2Proof

namespace Sys2Proof.Machine

variable {s t : State} {rd rs2 base : Reg} {off : Int} {a : Nat} {c : FatalCause}

/-! ### A step in the terms of the statements -/

theorem State.regsKept_commit {e : Effect} (h : e.wr = none) : s.RegsKept (s.commit e) :=
  ⟨by rw [State.reg_commit, if_pos rfl], fun r hr => by rw [State.reg_commit, if_neg hr, h]⟩

/-- With register 0 at 0 before, forcing it changes no register. -/
theorem State.RegsKept.reg_eq (h : s.RegsKept t) (hzero : s.reg 0 = 0) (r : Reg) : t.reg r = s.reg r := by
  obtain ⟨hzero', hreg⟩ := h
  by_cases hr : r = 0
  · rw [hr, hzero', hzero]
  · exact hreg r hr

/-- A register that is not written keeps its value, register 0 included where it holds 0 before. -/
theorem State.RegWritten.reg_other {v : Word} (h : s.RegWritten t rd v) (hzero : s.reg 0 = 0) {r : Reg} (hr : r ≠ rd) :
    t.reg r = s.reg r := by
  obtain ⟨hzero', hreg⟩ := h
  by_cases hr0 : r = 0
  · rw [hr0, hzero', hzero]
  · rw [hreg r hr0, if_neg hr]

/-- An instruction whose effect is a fatal condition enters it and does nothing else. -/
theorem exec_faultedBy {i : Instr} (hi : i ≠ .empty) (hc : effectOf i s = .error c) :
    ∃ t, exec i s = .next t ∧ s.FaultedBy t c :=
  ⟨_, exec_of_cause s hi hc, rfl⟩

/-! ### The effects of LW and SW -/

theorem effectOf_lw (rd : Reg) (ha : s.effectiveAddress off base = .ok a) :
    effectOf (.lw rd off base) s = .ok { wr := some (rd, s.memWord a), npc := s.pc + 1, memAccess := 1 } := by
  rw [effectOf, ha]; rfl

theorem effectOf_lw_fault (rd : Reg) (hc : s.effectiveAddress off base = .error c) :
    effectOf (.lw rd off base) s = .error c := by
  rw [effectOf, hc]; rfl

theorem effectOf_sw_fault (rs2 : Reg) (hc : s.effectiveAddress off base = .error c) :
    effectOf (.sw rs2 off base) s = .error c := by
  rw [effectOf, hc]; rfl

theorem exec_lw (rd : Reg) (ha : s.effectiveAddress off base = .ok a) :
    ∃ t, exec (.lw rd off base) s = .next t ∧ s.RegWritten t rd (s.memWord a) ∧ s.MemKept t ∧
      s.Dispatched t (s.pc + 1) 1 ∧ t.diag = s.diag :=
  ⟨_, exec_of_effect s nofun (effectOf_lw rd ha), State.regWritten_commit rfl, State.memKept_commit rfl,
    s.dispatched_commit _, s.commit_diag _⟩

theorem exec_sw (rs2 : Reg) (ha : s.effectiveAddress off base = .ok a) :
    ∃ t, exec (.sw rs2 off base) s = .next t ∧ (Memory.wf s.mem → t.memWord a = s.reg rs2) ∧
      (∀ b, b ≠ a → t.memWord b = s.memWord b) ∧ s.RegsKept t ∧ s.Dispatched t (s.pc + 1) 1 ∧ t.diag = s.diag := by
  have hexec := exec_of_effect s (i := .sw rs2 off base) nofun (effectOf_sw rs2 ha)
  have hmem := exec_mem hexec
  rw [storeBy_sw rs2 ha] at hmem
  exact ⟨_, hexec, fun hwf => (State.memWord_congr hmem a).trans (s.memWord_setMem_same a (s.reg rs2) hwf),
    fun b hb => (State.memWord_congr hmem b).trans (s.memWord_setMem_other (s.reg rs2) hb),
    State.regsKept_commit rfl, s.dispatched_commit _, s.commit_diag _⟩

/-! ### The obligations -/

/-- Settles O27: the store keeps every register and the bound, so the load goes to the same address and reads what was stored. -/
theorem storeThenLoad : Obligations.StoreThenLoad := by
  unfold Obligations.StoreThenLoad
  intro s rs2 rd base off a hzero hwf hrd ha
  obtain ⟨t, ht, hstored, hother, hkept, ⟨hpc, hinstr, -, hmem, ⟨-, -, -, hparams⟩, -⟩, -⟩ := exec_sw rs2 ha
  have hregs : ∀ r, t.reg r = s.reg r := hkept.reg_eq hzero
  have hload : t.effectiveAddress off base = .ok a :=
    (State.effectiveAddress_congr off (hregs base) hparams).trans ha
  obtain ⟨u, hu, hwritten, hmemKept, ⟨hpc', hinstr', -, hmem', -, -⟩, -⟩ := exec_lw rd hload
  refine ⟨t, u, ht, hu, ?_, ?_, ?_, ?_, ?_, fun r hr => ?_, fun b hb => ?_⟩
  · rw [hwritten.reg_dest hrd, hstored hwf]
  · rw [hmemKept a, hstored hwf]
  · rw [hpc', hpc]
  · rw [hinstr', hinstr]
  · rw [hmem', hmem]
  · rw [hwritten.reg_other ((hregs 0).trans hzero) hr, hregs r]
  · rw [hmemKept b, hother b hb]

/-- Settles O33: by format RM-load, and the word at the address is the whole effect besides pc + 1 and the access. -/
theorem lwLoadsWord : Obligations.LwLoadsWord := by
  unfold Obligations.LwLoadsWord
  refine ⟨fun args hlen => decodeTokens_count (o := .lw) (by simpa [Opcode.counts] using hlen), fun a m => ?_,
    fun s rd base off a ha => exec_lw rd ha, fun s rd base off c hc => exec_faultedBy nofun (effectOf_lw_fault rd hc)⟩
  exact (decodeTokens_spelling .lw [a, m]).trans (map_parseRM a m .lw)

/-- Settles O34: by format RM-store, and the store at the address is the whole effect besides pc + 1 and the access. -/
theorem swStoresWord : Obligations.SwStoresWord := by
  unfold Obligations.SwStoresWord
  refine ⟨fun args hlen => decodeTokens_count (o := .sw) (by simpa [Opcode.counts] using hlen), fun a m => ?_,
    fun s rs2 base off a ha => exec_sw rs2 ha, fun s rs2 base off c hc => exec_faultedBy nofun (effectOf_sw_fault rs2 hc)⟩
  exact (decodeTokens_spelling .sw [a, m]).trans (map_parseRM a m .sw)

end Sys2Proof.Machine
end

section
/-! PROOFS. BEQ, JAL and J (43_control_transfer.md R150 to R160): decoding, the transfer and the link where the label resolves,
and the fault where it does not. -/

namespace Sys2Proof

/-! ### Decoding -/

theorem decodeTokens_j_digits {t : Text} (h : DigitString t) :
    decodeTokens [Opcode.j.spelling, t] = .ok (.jRel (digitsNumber t)) := by
  rw [decodeTokens_spelling, decodeOperands, if_pos ((isNat_iff t).2 h), decimalValue_eq]

theorem decodeTokens_j_label {t : Text} (h : ¬ DigitString t) : decodeTokens [Opcode.j.spelling, t] = .ok (.jLab t) := by
  rw [decodeTokens_spelling, decodeOperands, if_neg (mt (isNat_iff t).1 h)]

end Sys2Proof

namespace Sys2Proof.Machine

variable {s : State} {rd rs1 rs2 : Reg} {lab : Text} {n : Nat} {c : FatalCause} {i : Instr}

/-! ### The effect of BEQ -/

theorem effectOf_beq_taken (lab : Text) (h : s.reg rs1 = s.reg rs2) :
    effectOf (.beq rs1 rs2 lab) s = (s.resolve lab).map fun n => { npc := n } := if_pos h

theorem effectOf_beq_untaken (lab : Text) (h : s.reg rs1 ≠ s.reg rs2) :
    effectOf (.beq rs1 rs2 lab) s = .ok { npc := s.pc + 1 } := if_neg h

/-! ### Transfers in the terms of the statements -/

/-- An instruction whose whole effect is its next pc goes there and does nothing else. -/
theorem exec_of_jump (hi : i ≠ .empty) (he : effectOf i s = .ok { npc := n }) :
    ∃ t, exec i s = .next t ∧ s.RegsKept t ∧ s.MemKept t ∧ s.Dispatched t n 0 ∧ t.diag = s.diag :=
  ⟨_, exec_of_effect s hi he, State.regsKept_commit rfl, State.memKept_commit rfl, s.dispatched_commit _,
    s.commit_diag _⟩

/-- A jump to a label goes where the label resolves. -/
theorem exec_jump_of_resolve (hi : i ≠ .empty) (he : effectOf i s = (s.resolve lab).map fun n => { npc := n })
    (hn : s.resolve lab = .ok n) :
    ∃ t, exec i s = .next t ∧ s.RegsKept t ∧ s.MemKept t ∧ s.Dispatched t n 0 ∧ t.diag = s.diag :=
  exec_of_jump hi (by rw [he, hn]; rfl)

theorem State.linkValue_eq (s : State) : s.linkValue = bvXlen (s.pc + 1) := congrArg bvXlen (Int.natCast_succ s.pc)

/-- A call of a label that resolves writes the link value (R153), goes there and does nothing else. -/
theorem exec_call_of_resolve (hi : i ≠ .empty)
    (he : effectOf i s = (s.resolve lab).map fun n => { wr := some (rd, s.linkValue), npc := n })
    (hn : s.resolve lab = .ok n) :
    ∃ t, exec i s = .next t ∧ s.RegWritten t rd (bvXlen (s.pc + 1)) ∧ s.MemKept t ∧ s.Dispatched t n 0 ∧
      t.diag = s.diag := by
  rw [hn, s.linkValue_eq] at he
  exact ⟨_, exec_of_effect s hi he, State.regWritten_commit rfl, State.memKept_commit rfl, s.dispatched_commit _,
    s.commit_diag _⟩

/-- A jump or call of a label that does not resolve enters LABEL_NOT_FOUND, whatever effect it would have had. -/
theorem exec_of_resolve_error {f : Nat → Effect} (hi : i ≠ .empty) (he : effectOf i s = (s.resolve lab).map f)
    (hc : s.resolve lab = .error c) : c = .labelNotFound lab ∧ ∃ t, exec i s = .next t ∧ s.FaultedBy t c :=
  ⟨s.resolve_error hc, exec_faultedBy hi (by rw [he, hc]; rfl)⟩

/-! ### The link value -/

/-- R77 bounds the program, so the index after an instruction of it is in the signed range. -/
theorem State.ProgramInv.toInt_link (h : s.ProgramInv) (hpc : s.pc < s.len) : (bvXlen (s.pc + 1)).toInt = s.pc + 1 := by
  have hlen : s.len < 2147483648 := h.lenBelow
  exact toInt_bvXlen_of_inSignedRange ((inSignedRange_iff _).2 ⟨by omega, by omega⟩)

/-! ### The obligations -/

/-- Settles O44: both calls write the link value, which is in the signed range. -/
theorem linkValueIsNextIndex : Obligations.LinkValueIsNextIndex := by
  unfold Obligations.LinkValueIsNextIndex
  intro s rd lab n hprog hpc hrd hn
  have hlink : (bvXlen (s.pc + 1)).toInt = s.pc + 1 := hprog.toInt_link hpc
  constructor
  · obtain ⟨t, ht, hreg, -⟩ := exec_call_of_resolve (i := .jalRd rd lab) nofun rfl hn
    exact ⟨t, ht, by rw [hreg.reg_dest hrd, hlink]⟩
  · obtain ⟨t, ht, hreg, -⟩ := exec_call_of_resolve (i := .jal lab) nofun rfl hn
    exact ⟨t, ht, by rw [hreg.reg_dest (by decide), hlink]⟩

/-- Settles O35: with equal registers BEQ is a jump to its label, with unequal ones a jump to pc + 1. -/
theorem beqBranchesWhenEqual : Obligations.BeqBranchesWhenEqual := by
  unfold Obligations.BeqBranchesWhenEqual
  exact ⟨fun args hlen => decodeTokens_count (o := .beq) (by simpa [Opcode.counts] using hlen),
    fun a b lab => decodeTokens_spelling .beq [a, b, lab],
    fun s rs1 rs2 lab n heq hn => exec_jump_of_resolve nofun (effectOf_beq_taken lab heq) hn,
    fun s rs1 rs2 lab c heq hc => exec_of_resolve_error nofun (effectOf_beq_taken lab heq) hc,
    fun s rs1 rs2 lab hne => exec_of_jump nofun (effectOf_beq_untaken lab hne)⟩

/-- Settles O36: JAL with one operand is a call of its label that links register 1. -/
theorem jalLinksRegisterOne : Obligations.JalLinksRegisterOne := by
  unfold Obligations.JalLinksRegisterOne
  exact ⟨fun lab => decodeTokens_spelling .jal [lab], fun s lab n hn => exec_call_of_resolve nofun rfl hn,
    fun s lab c hc => exec_of_resolve_error nofun rfl hc⟩

/-- Settles O37: JAL with two operands is a call of its label that links rd. -/
theorem jalRdLinksNamedRegister : Obligations.JalRdLinksNamedRegister := by
  unfold Obligations.JalRdLinksNamedRegister
  exact ⟨fun args hone htwo => decodeTokens_count (o := .jal) (by simp [Opcode.counts, hone, htwo]),
    fun a lab => decodeTokens_spelling .jal [a, lab], fun s rd lab n hn => exec_call_of_resolve nofun rfl hn,
    fun s rd lab c hc => exec_of_resolve_error nofun rfl hc⟩

/-- Settles O38: a digit string is read as its decimal value, and J adds it to its own index. -/
theorem jumpRelativeAddsLiteral : Obligations.JumpRelativeAddsLiteral := by
  unfold Obligations.JumpRelativeAddsLiteral
  exact ⟨fun args hlen => decodeTokens_count (o := .j) (by simpa [Opcode.counts] using hlen),
    fun tok htok => decodeTokens_j_digits htok, fun s n => exec_of_jump nofun rfl⟩

/-- Settles O39: every other token is read as a label, and J is a jump to it. -/
theorem jumpLabelResolves : Obligations.JumpLabelResolves := by
  unfold Obligations.JumpLabelResolves
  exact ⟨fun args hlen => decodeTokens_count (o := .j) (by simpa [Opcode.counts] using hlen),
    fun tok htok => decodeTokens_j_label htok, fun s lab n hn => exec_jump_of_resolve nofun rfl hn,
    fun s lab c hc => exec_of_resolve_error nofun rfl hc⟩

end Sys2Proof.Machine
end

section
/-! PROOFS. The unknown opcode and the empty instruction (44_noop.md R170 to R173): which strings decode to them, what they do,
and when a step reports. -/

namespace Sys2Proof

/-! ### Decoding to an unknown opcode -/

theorem recognise_eq_none_iff_not_mem {t : Text} : recognise t = none ↔ t ∉ opcodeMap.map Opcode.spelling := by
  simp [recognise, List.find?_eq_none]

/-- A token followed by a space is the first token, whatever the rest of the string. -/
theorem tokensOf_append_space {t : Text} (h : PlainToken t) (rest : Text) :
    tokensOf (t ++ ' ' :: rest) = t :: tokensOf rest := by
  obtain ⟨hne, hplain⟩ := h
  have hupper : upper t = t := upper_eq_self fun c hc => (hplain c hc).2
  have hspace : upperChar ' ' = ' ' := by decide
  rw [tokensOf, upper_append, upper_cons, hupper, hspace,
    tokenize_cons ⟨hne, fun c hc => (hplain c hc).1⟩ (by decide), tokensOf]

/-- The spelling of an unknown opcode decodes to it, whatever operands follow (R173). -/
theorem decode_unknown_append_space {op : Text} (h : (Instr.unknown op).wellFormed = true) (operands : Text) :
    decode (op ++ ' ' :: operands) = .ok (.unknown op) := by
  obtain ⟨htoken, hop⟩ : isUpperToken op = true ∧ recognise op = none := by simpa [Instr.wellFormed] using h
  rw [decode, tokensOf_append_space (.of_isUpperToken htoken), decodeTokens_unknown hop]

/-- Settles O55: each spelling is an uppercase token that is none of the eight opcodes, and such a token is the spelling of an
unknown opcode. -/
theorem standardSpellingsAreUnknown : Obligations.StandardSpellingsAreUnknown := by
  unfold Obligations.StandardSpellingsAreUnknown
  intro w hw
  have hwf : (Instr.unknown w.toList).wellFormed = true := by revert w; decide
  exact ⟨encodeDecodeRoundTrip _ hwf, decode_unknown_append_space hwf⟩

/-! ### Decoding to the empty instruction -/

theorem allSeparators_upper_iff (s : Text) : AllSeparators (upper s) ↔ AllSeparators s := by
  simp [AllSeparators, upper, isSeparator_upperChar]

theorem tokensOf_eq_nil_iff (txt : Text) : tokensOf txt = [] ↔ AllSeparators txt :=
  (tokenize_eq_nil (upper txt)).trans (allSeparators_upper_iff txt)

/-- No opcode token decodes to the empty instruction. -/
theorem decode_eq_empty_iff {txt : Text} : decode txt = .ok .empty ↔ tokensOf txt = [] := by
  constructor
  · intro h
    obtain ⟨-, htok⟩ | ⟨op, args, -, -, hunknown⟩ | ⟨o, args, -, hok⟩ := decode_ok h
    · exact htok
    · cases hunknown
    · exact (decodeOperands_ok hok).elim
  · intro htok
    rw [decode, htok, decodeTokens_nil]

end Sys2Proof

namespace Sys2Proof.Machine

/-! ### The report of a step -/

/-- The report of a committed instruction (R171), where no report stood before: the instruction is an unknown opcode. -/
theorem State.commit_diag_eq_some {i : Instr} {s : State} {e : Effect} {r : Report} (he : effectOf i s = .ok e)
    (hdiag : s.diag = none) :
    (s.commit e).diag = some r ↔ ∃ op, i = .unknown op ∧ r = { token := op, pc := s.pc } := by
  obtain ⟨op, rfl, hreport, -⟩ | ⟨hknown, hreport⟩ := effectOf_diag s he
  · simp [hreport, eq_comm]
  · simp [hreport, hdiag, hknown]

theorem exec_unknown (s : State) (op : Text) :
    exec (.unknown op) s = .next (s.commit { npc := s.pc + 1, diag := some { token := op, pc := s.pc } }) :=
  exec_of_effect s nofun rfl

/-- Settles O29: of all that a step can do after ending the report, only the commit of an unknown opcode makes one. -/
theorem reportOfUnknownOpcode : Obligations.ReportOfUnknownOpcode := by
  unfold Obligations.ReportOfUnknownOpcode
  intro s t r hstep
  constructor
  · intro hreport
    obtain ⟨-, rfl⟩ | ⟨txt, hfetch, hdone⟩ := step_next s hstep
    · cases hreport
    · obtain ⟨-, rfl⟩ | ⟨i, e, hd, -, he, rfl⟩ | ⟨i, c, -, -, -, rfl⟩ | ⟨c, -, rfl⟩ := hdone
      · cases hreport
      · obtain ⟨op, rfl, hr⟩ := (State.commit_diag_eq_some he rfl).1 hreport
        obtain ⟨hrun, htxt⟩ := s.fetch_eq_some.1 hfetch
        exact ⟨txt, op, hrun, htxt, hd, hr⟩
      · cases hreport
      · cases hreport
  · rintro ⟨txt, op, hrun, htxt, hd, rfl⟩
    rw [step_exec s (s.fetch_eq_some.2 ⟨hrun, htxt⟩) hd, exec_unknown] at hstep
    cases hstep
    exact (State.commit_diag_eq_some rfl rfl).2 ⟨op, rfl, rfl⟩

/-! ### The instructions -/

/-- Settles O40: a token that is none of the eight decodes without a look at its operands, and the report is all that an unknown
opcode does besides pc + 1 and the counters. -/
theorem unknownOpcodeIsCountedNoOp : Obligations.UnknownOpcodeIsCountedNoOp := by
  unfold Obligations.UnknownOpcodeIsCountedNoOp
  exact ⟨fun op args hop => decodeTokens_unknown (recognise_eq_none_iff_not_mem.2 hop) args,
    fun s op => ⟨_, exec_unknown s op, State.regsKept_commit rfl, State.memKept_commit rfl, s.dispatched_commit _,
      s.commit_diag _⟩⟩

/-- Settles O41: the empty instruction is decoded from no token, and a string has no token when it is all separators. -/
theorem emptyInstructionOnlyAdvances : Obligations.EmptyInstructionOnlyAdvances := by
  unfold Obligations.EmptyInstructionOnlyAdvances
  exact ⟨fun txt => decode_eq_empty_iff.trans (tokensOf_eq_nil_iff txt), exec_empty⟩

end Sys2Proof.Machine
end

section
/-! PROOFS. The fault of a step (60_exceptions.md R180, R184): what it changes, and which row of the cause table it is. -/

namespace Sys2Proof.Machine

/-! ### Which steps fault -/

/-- A step of a Running block that ends with a valid latch has entered the fault of decoding or of execution, and no other. -/
theorem step_enters_fault {s t : State} (hrun : s.runState = .running) (h : step s = .next t) (hvalid : t.fault.valid = true) :
    ∃ txt c, s.prog[s.pc]? = some txt ∧ t = s.endReport.enterFault c ∧
      (decode txt = .error c ∨ ∃ i, decode txt = .ok i ∧ effectOf i s.endReport = .error c) := by
  have hclear : s.fault.valid = false := (s.runState_running.1 hrun).1
  obtain ⟨hstop, -⟩ | ⟨txt, hfetch, hdone⟩ := step_next s h
  · exact absurd hrun hstop
  · have hslot : s.prog[s.pc]? = some txt := (s.fetch_eq_some.1 hfetch).2
    obtain ⟨-, rfl⟩ | ⟨_, _, -, -, -, rfl⟩ | ⟨i, c, hd, -, hc, rfl⟩ | ⟨c, hd, rfl⟩ := hdone
    · simp [hclear] at hvalid
    · simp [hclear] at hvalid
    · exact ⟨txt, c, hslot, rfl, .inr ⟨i, hd, hc⟩⟩
    · exact ⟨txt, c, hslot, rfl, .inl hd⟩

/-- Settles O14: such a step ends the report and enters the fault, and a Faulted block without a report stays as it is. -/
theorem faultEntryIsPrecise : Obligations.FaultEntryIsPrecise := by
  unfold Obligations.FaultEntryIsPrecise
  intro s t hrun h hvalid
  obtain ⟨-, c, -, rfl, -⟩ := step_enters_fault hrun h hvalid
  have hfaulted : (s.endReport.enterFault c).runState = .faulted := (State.runState_faulted _).2 rfl
  exact ⟨⟨c, rfl⟩, rfl, rfl, rfl, rfl, rfl, rfl, ⟨rfl, rfl, rfl, rfl⟩, rfl, hfaulted,
    step_not_running _ (by rw [hfaulted]; nofun)⟩

/-! ### The operands that fault -/

/-- A label that does not resolve is in neither table (40_step_cycle.md R119). -/
theorem State.find_of_resolve_error {s : State} {lab : Text} {c : FatalCause} (h : s.resolve lab = .error c) :
    LabelTable.find s.lblExact lab = none ∧ LabelTable.find s.lblUpper (upper lab) = none := by
  obtain ⟨i, -, he⟩ | ⟨i, -, -, he⟩ | ⟨hexact, hupper, he⟩ := s.resolve_cases lab <;> rw [he] at h <;> cases h
  exact ⟨hexact, hupper⟩

/-- An address out of range is negative, or it is at or above a bound that is set (20_memory.md R57). -/
theorem State.effectiveAddress_error {s : State} {off : Int} {base : Reg} {c : FatalCause}
    (h : s.effectiveAddress off base = .error c) :
    (c = .negativeAddress (s.addressSum off base) ∧ s.addressSum off base < 0) ∨
    (c = .addressAboveBound (s.addressSum off base) ∧ 0 ≤ s.addressSum off base ∧
      ∃ b, s.params.memAddrBound = some b ∧ (b : Int) ≤ s.addressSum off base) := by
  obtain ⟨hneg, he⟩ | ⟨hnonneg, hbound, he⟩ | ⟨-, -, he⟩ := s.effectiveAddress_cases off base <;> rw [he] at h <;> cases h
  · exact .inl ⟨rfl, hneg⟩
  · exact .inr ⟨rfl, hnonneg, Config.atOrAboveBound_eq_true.1 hbound⟩

/-! ### The row of the cause table -/

/-- Settles O15: decoding raises a condition of an opcode's own rows, and execution raises one by a label that is in neither
table or by an address out of range. -/
theorem faultLatchFollowsCauseTable : Obligations.FaultLatchFollowsCauseTable := by
  unfold Obligations.FaultLatchFollowsCauseTable
  intro s t hrun h hvalid
  obtain ⟨txt, c, hslot, rfl, hd | ⟨i, hd, hc⟩⟩ := step_enters_fault hrun h hvalid
  · refine ⟨txt, hslot, rfl, .inl ?_⟩
    obtain ⟨op, args, htok, hrow⟩ := decode_raises hd
    cases c with
    | operandCount tok | regSyntax tok | regRange tok | intSyntax tok | intRange tok | memSyntax tok =>
      -- the sub-code is read off the latch, and it selects this row of the table
      refine ⟨tok, _, op, args, htok, ?_, ?_, ?_, ?_, rfl, rfl, rfl⟩
      · exact hd
      · exact hrow
      · simp [FatalCause.sub]
      · simp [FatalCause.sub]
    | labelNotFound _ | negativeAddress _ | addressAboveBound _ => exact hrow.elim
  · refine ⟨txt, hslot, rfl, .inr ?_⟩
    obtain ⟨lab, hlab, hform⟩ | ⟨off, base, haddr, hform⟩ := effectOf_error _ hc
    · obtain rfl := State.resolve_error _ hlab
      obtain ⟨hexact, hupper⟩ := State.find_of_resolve_error hlab
      exact .inl ⟨i, lab, hd, hform, hexact, hupper, rfl, rfl, rfl⟩
    · obtain ⟨rfl, hneg⟩ | ⟨rfl, hnonneg, hbound⟩ := State.effectiveAddress_error haddr
      · exact .inr ⟨i, off, base, hd, hform, rfl, rfl, .inl ⟨rfl, hneg⟩⟩
      · exact .inr ⟨i, off, base, hd, hform, rfl, rfl, .inr ⟨rfl, hnonneg, hbound⟩⟩

end Sys2Proof.Machine
end

section
/-! PROOFS. Reset (70_reset_and_hazards.md R210 to R213): the reset values, reset at a clock edge, and the run after reset. -/

namespace Sys2Proof.Machine

/-! ### Runs after reset -/

/-- Of the state before, reset sees the read-only inputs alone. -/
theorem State.InputsKept.resetMachine_eq {s t : State} (h : s.InputsKept t) : t.resetMachine = s.resetMachine := by
  obtain ⟨hprog, hexact, hupper, hparams⟩ := h
  simp only [State.resetMachine, hprog, hexact, hupper, hparams]

/-- Settles O6: a run keeps the read-only inputs, and reset sees nothing else of it. -/
theorem resetReproducesRun : Obligations.ResetReproducesRun := by
  unfold Obligations.ResetReproducesRun
  intro s j k
  have hkept : s.InputsKept (State.afterSteps j s) := readOnlyInputsNeverChange j s
  rw [hkept.resetMachine_eq]

/-! ### The reset values -/

theorem State.inputsKept_resetMachine (s : State) : s.InputsKept s.resetMachine := ⟨rfl, rfl, rfl, rfl⟩

theorem State.memWord_resetMachine (s : State) (a : Nat) : s.resetMachine.memWord a = 0 := Memory.read_nil a

/-- Settles O1, row by row of R210's table. -/
theorem resetGivesResetValues : Obligations.ResetGivesResetValues := by
  unfold Obligations.ResetGivesResetValues
  exact fun s => ⟨s.reg_resetMachine, s.memWord_resetMachine, s.resetMachine_pc, s.resetMachine_ctrInstr,
    s.resetMachine_ctrCycle, s.resetMachine_ctrMem, congrArg FaultLatch.valid s.resetMachine_fault, s.resetMachine_diag,
    s.inputsKept_resetMachine, s.runState_resetMachine⟩

theorem State.reset_resetMachine : State.reset.resetMachine = State.reset := rfl

/-- Settles O2: the empty program makes the reset state Halted. -/
theorem freshMachineIsItsOwnReset : Obligations.FreshMachineIsItsOwnReset := by
  unfold Obligations.FreshMachineIsItsOwnReset
  have hhalted : State.reset.runState = .halted := State.reset.runState_halted.2 ⟨rfl, Nat.le_refl 0⟩
  exact ⟨State.reset_resetMachine, rfl, hhalted, rfl⟩

theorem State.programInv_reset : State.reset.ProgramInv where
  lenBelow := by decide
  ascii := nofun
  exactDistinct := List.nodup_nil
  upperDistinct := List.nodup_nil
  exactWithin := nofun
  upperWithin := nofun

/-- Settles O3: reset makes the invariant from its program part, which the empty program of `State.reset` has. -/
theorem resetStateSatisfiesInv : Obligations.ResetStateSatisfiesInv := by
  unfold Obligations.ResetStateSatisfiesInv
  have hfresh : State.reset.resetMachine.Inv := State.inv_resetMachine State.programInv_reset
  rw [State.reset_resetMachine] at hfresh
  exact ⟨hfresh, fun _ => State.inv_resetMachine⟩

/-! ### Clock edges -/

@[simp] theorem State.clockEdge_rst (s : State) (req : Bool) :
    s.clockEdge { rst := true, stepReq := req } = .next s.resetMachine := rfl

@[simp] theorem State.clockEdge_step (s : State) : s.clockEdge { rst := false, stepReq := true } = step s := rfl

@[simp] theorem State.clockEdge_idle (s : State) :
    s.clockEdge { rst := false, stepReq := false } = .next s.endReport := rfl

/-- Settles O7: the three branches of an edge, and an edge without reset only ends the report of a block not Running. -/
theorem clockEdgeResetBeatsStep : Obligations.ClockEdgeResetBeatsStep := by
  unfold Obligations.ClockEdgeResetBeatsStep
  refine fun s => ⟨s.clockEdge_rst, s.clockEdge_step, s.clockEdge_idle, fun hstop req t hedge => ?_⟩
  rw [State.clockEdge_not_running hstop rfl] at hedge
  obtain rfl : s.endReport = t := Host.Outcome.next.inj hedge
  exact s.runState_endReport

end Sys2Proof.Machine
end

section
/-! PROOFS. Self-loops (70_reset_and_hazards.md R221): a transfer to pc itself. -/

namespace Sys2Proof.Machine

/-! ### Counters alone -/

/-- `s` with `k` more instructions and cycles counted. -/
def State.counted (s : State) (k : Nat) : State :=
  { s with ctrInstr := s.ctrInstr + k, ctrCycle := s.ctrCycle + k }

theorem State.counted_counted (s : State) (j k : Nat) : (s.counted j).counted k = s.counted (j + k) := by
  simp only [State.counted, Nat.add_assoc]

@[simp] theorem State.runState_counted (s : State) (k : Nat) : (s.counted k).runState = s.runState := rfl

/-- No instruction reads a counter. -/
theorem effectOf_counted (i : Instr) (s : State) (k : Nat) : effectOf i (s.counted k) = effectOf i s := by
  cases i <;> rfl

theorem State.endReport_of_diag_none {s : State} (h : s.diag = none) : s.endReport = s := by
  rw [State.endReport, ← h]

/-- Where register 0 holds 0, the commit of a jump to pc itself changes the two counters alone. -/
theorem State.commit_jump_self {s : State} (hzero : s.reg 0 = 0) : s.commit { npc := s.pc } = s.counted 1 := by
  have hx : s.x.set 0 0 = s.x := s.set_zero_self hzero
  calc s.commit { npc := s.pc } = { s.counted 1 with x := s.x.set 0 0 } := rfl
    _ = s.counted 1 := by rw [hx]; rfl

/-! ### Runs of a self-loop -/

/-- The block is about to execute a jump to pc itself, register 0 holds 0, and no report is on the output lines. -/
structure State.SelfLoop (s : State) : Prop where
  jump  : ∃ txt i, s.fetch = some txt ∧ decode txt = .ok i ∧ i ≠ .empty ∧ effectOf i s = .ok { npc := s.pc }
  zero  : s.reg 0 = 0
  quiet : s.diag = none

theorem State.SelfLoop.after_eq_counted {s : State} (h : s.SelfLoop) : s.after = s.counted 1 := by
  obtain ⟨txt, i, hf, hd, hi, he⟩ := h.jump
  refine after_eq s ?_
  rw [step_exec s hf hd, State.endReport_of_diag_none h.quiet, exec_of_effect s hi he, State.commit_jump_self h.zero]

theorem State.SelfLoop.counted {s : State} (h : s.SelfLoop) (k : Nat) : (s.counted k).SelfLoop := by
  obtain ⟨⟨txt, i, hf, hd, hi, he⟩, hzero, hquiet⟩ := h
  exact ⟨⟨txt, i, hf, hd, hi, (effectOf_counted i s k).trans he⟩, hzero, hquiet⟩

theorem State.SelfLoop.afterSteps_eq_counted (k : Nat) :
    ∀ {s : State}, s.SelfLoop → State.afterSteps k s = s.counted k := by
  induction k with
  | zero => exact fun _ => rfl
  | succ k ih =>
    intro s h
    rw [State.afterSteps, h.after_eq_counted, ih (h.counted 1), State.counted_counted, Nat.add_comm]

/-- The three forms of a self-loop have a jump to pc as their whole effect. -/
theorem effectOf_self_loop {s : State} {i : Instr}
    (h : i = .jRel 0 ∨ (∃ lab, i = .jLab lab ∧ s.resolve lab = .ok s.pc) ∨
      ∃ rs1 rs2 lab, i = .beq rs1 rs2 lab ∧ s.reg rs1 = s.reg rs2 ∧ s.resolve lab = .ok s.pc) :
    i ≠ .empty ∧ effectOf i s = .ok { npc := s.pc } := by
  obtain rfl | ⟨lab, rfl, hn⟩ | ⟨rs1, rs2, lab, rfl, heq, hn⟩ := h
  · exact ⟨nofun, rfl⟩
  · exact ⟨nofun, by rw [effectOf, hn]; rfl⟩
  · exact ⟨nofun, by rw [effectOf_beq_taken lab heq, hn]; rfl⟩

/-- Settles O28: every step of a self-loop is the same step, and its states stay Running. -/
theorem selfLoopsRunForever : Obligations.SelfLoopsRunForever := by
  unfold Obligations.SelfLoopsRunForever
  intro s txt i hrun hslot hd hform hzero hquiet
  obtain ⟨hi, he⟩ := effectOf_self_loop hform
  have hloop : s.SelfLoop := ⟨⟨txt, i, s.fetch_eq_some.2 ⟨hrun, hslot⟩, hd, hi, he⟩, hzero, hquiet⟩
  refine ⟨fun k => hloop.afterSteps_eq_counted k, ?_⟩
  rintro t ⟨k, rfl, hstop⟩
  rw [hloop.afterSteps_eq_counted k, State.runState_counted] at hstop
  exact hstop hrun

end Sys2Proof.Machine
end
